-- ==== Sys2Proof/Word.lean ====
section
/-! DEFINITION. The word types of the block, each named after what the spec calls it (00_scope.md R10, 10_state.md R20). -/

namespace Sys2Proof

/-- A byte: 8 bits (R10); the document's `u8`. -/
abbrev Byte := BitVec 8

/-- A 16-bit value: CRC_ACC, MEAS_RAW, a register address (R20, R72); the document's `u16`. -/
abbrev Half := BitVec 16

/-- A 64-bit word read as IEEE 754 binary64 (R80); the document's `f64`. -/
abbrev F64 := BitVec 64

/-- The command word `cw` of the command port: 68 bits, `cw[67:64]` the opcode, `cw[63:0]` the data field (R70). -/
abbrev CmdWord := BitVec 68

end Sys2Proof
end

