-- ==== Sys2Proof/Syntax.lean ====
section
/-! DEFINITION. The nine commands of the block, one constructor per row of spec/opcode_table.json (30_encoding.md R73),
with the operands of their formats N, B, R and Q (R71). -/

namespace Sys2Proof

/-- A command of the block (R73). Operands are values carried in the command word, never register numbers (R21), each of
exactly its field's width (R72). -/
inductive Instr where
  /-- CRC.INIT, format N (R104). -/
  | crcInit
  /-- CRC.UPDATE b, format B (R105). -/
  | crcUpdate (b : Byte)
  /-- ENC.BUILD sa, ra, format R (R122). -/
  | encBuild (sa : Byte) (ra : Half)
  /-- TX.DISCARD, format N (R123). -/
  | txDiscard
  /-- RX.CLEAR, format N (R135). -/
  | rxClear
  /-- RX.OPEN, format N (R136). -/
  | rxOpen
  /-- RX.PUSH b, format B (R137). -/
  | rxPush (b : Byte)
  /-- DEC.DECODE sf, format Q (R140). -/
  | decDecode (sf : F64)
  /-- DEC.VALIDATE ea, format B (R161). -/
  | decValidate (ea : Byte)
  deriving DecidableEq, Repr

end Sys2Proof
end

