-- ==== Sys2Proof/WellFormed.lean ====
section
/-! DEFINITION. What it takes for a command, an operand a host holds, and a command word to be well formed. -/

namespace Sys2Proof

/-- Every command is well formed: "every value of every operand field of the nine commands is legal" (R74), and the
fields are exactly as wide as the operands (R72), so there is nothing here to refuse. -/
def Instr.WellFormed : Instr → Bool
  | .crcInit => true
  | .crcUpdate _ => true
  | .encBuild _ _ => true
  | .txDiscard => true
  | .rxClear => true
  | .rxOpen => true
  | .rxPush _ => true
  | .decDecode _ => true
  | .decValidate _ => true

/-- A host's integer fits a field of `width` bits: the premise the document puts on the caller of `buildRequest`
(R72, R125; 93_implementation_defined.md U1). -/
def operandFits (width n : Nat) : Bool := n < 2 ^ width

/-- The bits of `data` that a format does not use are 0 in this word. Such bits are ignored on the way in (R71, U10) and
written as 0 by an encoder (R76, U10), so this is what tells an encoder's word from other spellings of one command. Words
with a reserved opcode have no format, so none is canonical. -/
def CmdWord.Canonical (w : CmdWord) : Bool :=
  let data : BitVec 64 := w.extractLsb' 0 64
  match (w.extractLsb' 64 4 : BitVec 4).toNat with
  | 1 | 4 | 5 | 6 => data == 0
  | 2 | 7 | 9 => data.extractLsb' 8 56 == 0
  | 3 => data.extractLsb' 24 40 == 0
  | 8 => true
  | _ => false

end Sys2Proof
end

