-- ==== Sys2Proof/Decode.lean ====
section
/-! DEFINITION. The decoder of the command word (30_encoding.md R70 to R75), total on every 68-bit word and rejecting by
name, and after it the encoder, written from the same opcode map (R73). -/

namespace Sys2Proof

/-- Why a command word is no command. -/
inductive DecodeError where
  /-- The opcode is one of the seven reserved ones, 0x0 and 0xA to 0xF (R74). Safe: the machine then does what R74 says,
  it sets ILL_CMD. -/
  | reservedOpcode (op : BitVec 4)
  deriving DecidableEq, Repr

/-- `cw[67:64]` (R70). -/
def opcode (cw : CmdWord) : BitVec 4 := cw.extractLsb' 64 4

/-- `cw[63:0]` (R70). -/
def dataField (cw : CmdWord) : BitVec 64 := cw.extractLsb' 0 64

/-- Field `b` (and `ea`) of format B: `cw[7:0]` (R71). -/
def fieldB (cw : CmdWord) : Byte := cw.extractLsb' 0 8

/-- Field `sa` of format R: `cw[23:16]` (R71). -/
def fieldSa (cw : CmdWord) : Byte := cw.extractLsb' 16 8

/-- Field `ra` of format R: `cw[15:0]` (R71). -/
def fieldRa (cw : CmdWord) : Half := cw.extractLsb' 0 16

/-- Field `sf` of format Q: `cw[63:0]` (R71). -/
def fieldSf (cw : CmdWord) : F64 := cw.extractLsb' 0 64

/-- The command a word stands for, by the opcode map of R73. Bits outside the format's fields are ignored (R71); the
opcode alone is examined to tell commands apart and to reject (R73, R204). -/
def decode (cw : CmdWord) : Except DecodeError Instr :=
  match (opcode cw).toNat with
  | 0x1 => .ok .crcInit
  | 0x2 => .ok (.crcUpdate (fieldB cw))
  | 0x3 => .ok (.encBuild (fieldSa cw) (fieldRa cw))
  | 0x4 => .ok .txDiscard
  | 0x5 => .ok .rxClear
  | 0x6 => .ok .rxOpen
  | 0x7 => .ok (.rxPush (fieldB cw))
  | 0x8 => .ok (.decDecode (fieldSf cw))
  | 0x9 => .ok (.decValidate (fieldB cw))
  | _ => .error (.reservedOpcode (opcode cw))

/-- The command word in a number whose bit 0 is the word's bit 0. The command port is 68 bits wide (R70), so a number
written in whole bytes (72 bits) has its top four bits cut off (DESIGN CHOICE, assumption 17). -/
def cmdWordOfNat (nbits w : Nat) : CmdWord := BitVec.ofNat 68 (w % 2 ^ nbits)

/-- What the decoder reads from a word numbered as spec/opcode_table.json numbers it. -/
def decodeTableWord (nbits w : Nat) : Option Instr :=
  match decode (cmdWordOfNat nbits w) with
  | .ok i => some i
  | .error _ => none

/-- The opcode of a command (R73). -/
def opcodeOf : Instr → BitVec 4
  | .crcInit => 0x1
  | .crcUpdate _ => 0x2
  | .encBuild _ _ => 0x3
  | .txDiscard => 0x4
  | .rxClear => 0x5
  | .rxOpen => 0x6
  | .rxPush _ => 0x7
  | .decDecode _ => 0x8
  | .decValidate _ => 0x9

/-- The data field an encoder writes: the format's fields in their places, every other bit 0 (R71, U10). -/
def dataOf : Instr → BitVec 64
  | .crcInit => 0
  | .crcUpdate b => (0 : BitVec 56) ++ b
  | .encBuild sa ra => (0 : BitVec 40) ++ sa ++ ra
  | .txDiscard => 0
  | .rxClear => 0
  | .rxOpen => 0
  | .rxPush b => (0 : BitVec 56) ++ b
  | .decDecode sf => sf
  | .decValidate ea => (0 : BitVec 56) ++ ea

/-- The command word with opcode `op` and data field `data`: `cw = op × 2^64 + data` (R70). -/
def mkWord (op : BitVec 4) (data : BitVec 64) : CmdWord := op ++ data

/-- The word of a command (R70, R73). -/
def encode (i : Instr) : CmdWord := mkWord (opcodeOf i) (dataOf i)

/-- The mnemonic of a command as the opcode map spells it (R73). -/
def mnemonic : Instr → String
  | .crcInit => "CRC.INIT"
  | .crcUpdate _ => "CRC.UPDATE"
  | .encBuild _ _ => "ENC.BUILD"
  | .txDiscard => "TX.DISCARD"
  | .rxClear => "RX.CLEAR"
  | .rxOpen => "RX.OPEN"
  | .rxPush _ => "RX.PUSH"
  | .decDecode _ => "DEC.DECODE"
  | .decValidate _ => "DEC.VALIDATE"

/-- The mask column of the opcode map: it selects `cw[67:64]` only (R73). -/
def opcodeMask : CmdWord := 0xF0000000000000000

/-- The match column of the opcode map (R73). -/
def matchWord : Instr → CmdWord
  | .crcInit => 0x10000000000000000
  | .crcUpdate _ => 0x20000000000000000
  | .encBuild _ _ => 0x30000000000000000
  | .txDiscard => 0x40000000000000000
  | .rxClear => 0x50000000000000000
  | .rxOpen => 0x60000000000000000
  | .rxPush _ => 0x70000000000000000
  | .decDecode _ => 0x80000000000000000
  | .decValidate _ => 0x90000000000000000

end Sys2Proof
end

