-- ==== Sys2Proof/Config.lean ====
section
/-! DEFINITION. What is fixed for the machine: the constants of 00_scope.md R6 and 10_state.md R31, the parameters of
R7 and R8, and the free values (opaque constants without a body) for what the spec leaves unspecified. -/

namespace Sys2Proof.Config

/-- CRC_POLY: the constant XORed in after a shift that dropped a 1 (R6, R100). -/
abbrev crcPoly : Half := 0xA001

/-- CRC_INIT: the accumulator at the start of every computation (R6, R102, R104). -/
abbrev crcInit : Half := 0xFFFF

/-- CRC_STEPS_PER_BYTE: bit steps per input byte (R6, R101). -/
abbrev crcStepsPerByte : Nat := 8

/-- FUNC_CODE: hardwired, visible on the read port (R6, R31). -/
abbrev funcCode : Byte := 0x03

/-- REG_COUNT: hardwired, visible on the read port (R6, R31). -/
abbrev regCount : Half := 0x0001

/-- REQ_BODY_LEN: request bytes before the CRC (R6). -/
abbrev reqBodyLen : Nat := 6

/-- REQ_FRAME_LEN: bytes of a request frame, and of TXBUF (R6, R24, R50). -/
abbrev reqFrameLen : Nat := 8

/-- MIN_RESP_LEN: the shortest response that is decoded (R6, R138). -/
abbrev minRespLen : Nat := 5

/-- EXPECTED_RESP_LEN: the full response to this block's request (R6, R160). -/
abbrev expectedRespLen : Nat := 7

/-- RESP_VALUE_OFFSET_HI (R6, R138). -/
abbrev respValueOffsetHi : Nat := 3

/-- RESP_VALUE_OFFSET_LO (R6, R138). -/
abbrev respValueOffsetLo : Nat := 4

/-- EXPECTED_BYTE_COUNT: expected byte-count field of the response (R6, R160). -/
abbrev expectedByteCount : Byte := 0x02

/-- The default of the parameter RX_CAP (R8, 92_eei_decisions.md D12). The parameter itself is the field `rxCap` of the
machine's State, so that every statement holds for every capacity (DESIGN CHOICE, assumption 2). -/
abbrev rxCapDefault : Nat := 256

/-- The constraint `RX_CAP ≥ 7` of R8. -/
abbrev rxCapMin : Nat := 7

/-- DEFAULT_SLAVE: the host's operand for the repository's one exchange (R7). -/
abbrev defaultSlave : Byte := 0x01

/-- DEFAULT_REG_ADDR (R7). -/
abbrev defaultRegAddr : Half := 0x0101

/-- DEFAULT_SCALE: 0.1 as a binary64 operand (R7, R83). -/
abbrev defaultScale : F64 := 0x3FB999999999999A

/-- The line configuration the transport must already have; no rule of the block depends on it (R183). -/
structure LineConfig where
  baud : Nat
  dataBits : Nat
  stopBits : Nat
  parity : Bool
  deriving DecidableEq, Repr

/-- 9600 baud, 8 data bits, 1 stop bit, no parity (R7, R183). -/
def line : LineConfig := { baud := 9600, dataBits := 8, stopBits := 1, parity := false }

/-- FREE VALUE. The 64 bits the read port shows at draw `n`, select `sel`, for an item that holds no value
(R20, R32; 93_implementation_defined.md U6). Assumption 4. -/
opaque freeRead : Nat → BitVec 4 → BitVec 64

/-- FREE VALUE. The byte a command finds at draw `n` at RXBUF index `i` where RXBUF holds no value (R20, U6).
No state a run from reset reaches reads one (R59). Assumption 4. -/
opaque freeByte : Nat → Nat → Byte

/-- FREE VALUE. The bits from which the unspecified NaN word of draw `n` is made (R139; U7). Assumption 5. -/
opaque freeNaN : Nat → BitVec 64

end Sys2Proof.Config
end

