-- ==== Sys2Proof/Machine/State.lean ====
section
/-! DEFINITION. The state of the machine as plain data: the block's registers and buffers (10_state.md R20), the samples
still to come at its ports, and the second agent, the host's exchange sequencer (44_exchange_sequencer.md R176). -/

namespace Sys2Proof.Machine

/-- A buffer: (index, byte) pairs. An index that is not listed holds no value (R20: "its content is unspecified, no rule
reads it"), so writing never has to remove an entry. -/
abbrev Memory := List Host.Cell

/-- The canonical form: indices strictly rising, so equal buffers are equal lists. -/
abbrev Memory.wf (m : Memory) : Prop := (m.map Prod.fst).Pairwise (fun a b => a < b)

/-- The document's Measurement, `{rawValue: u16, scaledValue: f64}` (R26, R38): MEAS_RAW and MEAS_SCALED. -/
structure Measurement where
  raw : Half
  scaled : F64
  deriving DecidableEq, Repr

/-- What happens at the block's ports at one time. -/
inductive PortEvent where
  /-- One sample of the inputs `rst`, `cmd_valid` and `cw` (R70, R220). -/
  | pins (rst : Bool) (cmdValid : Bool) (cw : CmdWord)
  /-- The host reads item `sel` of the read port (R32). -/
  | read (sel : BitVec 4)
  /-- Nothing of the above: the turn is the exchange sequencer's. With it any sample or read can fall between any two of
  the sequencer's steps and commands, as R191 allows (assumption 9). -/
  | idle
  deriving DecidableEq, Repr

/-- What the transport's `write` does: it returns, or it fails with a cause (R182, R184). -/
inductive WriteResult where
  | ok
  | fail (cause : String)
  deriving DecidableEq, Repr

/-- What the transport's `read` does: it fails, returns no sequence (the absent frame), or returns a byte sequence,
possibly empty (R182, R184). -/
inductive ReadResult where
  | fail (cause : String)
  | nothing
  | bytes (bs : List Byte)
  deriving DecidableEq, Repr

/-- The document's RegisterRequest, less its two constant fields (R38): the function code is FUNC_CODE and the register
count REG_COUNT, both wired into the block (R31). -/
structure RegisterRequest where
  slaveAddress : Byte
  registerAddress : Half
  deriving DecidableEq, Repr

/-- One invocation of an exchange: the operands of R187, the host's parameters, and the transport's answers, which are
free data (R66, R182). -/
structure Invocation where
  request : RegisterRequest
  /-- The operand of DEC.DECODE (R187 step 9). -/
  scale : F64
  /-- The strict sequence of R165: step 8 of R187 is done. -/
  strict : Bool
  /-- READ_MAX_BYTES (R182, D30; what is legal is `Invocation.keepsRules`). -/
  readMaxBytes : Nat
  /-- QUIESCENCE_DELAY, as a number of host steps (R178, D30; assumption 10). -/
  quiescence : Nat
  onWrite : WriteResult
  onRead : ReadResult
  deriving DecidableEq, Repr

/-- How an exchange ended: the document's {Measurement, NoResponse, TransportError(cause)} (R184). -/
inductive ExchangeOutcome where
  | measurement (m : Measurement)
  | absent
  | transportError (cause : String)
  deriving DecidableEq, Repr

/-- The rows of the table of R187 that the sequencer is carrying out: a phase lasts until the commands of its rows have run
and the host has done what follows them. -/
inductive Phase where
  /-- Before row 1. -/
  | start
  /-- Rows 1 and 2, then row 3: RX.CLEAR and ENC.BUILD, read TXBUF and write it once. -/
  | build
  /-- Row 4: TX.DISCARD. -/
  | discard
  /-- Row 5, `left` more steps of the wait; then row 6: read once. -/
  | wait (left : Nat)
  /-- Rows 7a and 7b: load what came; then, in the plain sequence, look at RX_OVF (R231). -/
  | load
  /-- Row 8: DEC.VALIDATE; then look at VSTAT[7] and RX_OVF (R165, R231). -/
  | validate
  /-- Row 9, then row 10: DEC.DECODE, read the result. -/
  | decode
  /-- The exchange has ended. -/
  | done (o : ExchangeOutcome)
  deriving DecidableEq, Repr

/-- The host's exchange state (R176). -/
inductive ExchangeState where
  | idle
  | requestSent
  | awaitingResponse
  | completedMeasurement (m : Measurement)
  | completedAbsent
  deriving DecidableEq, Repr

/-- One exchange in progress or ended: its invocation, its place in R187, and what its transport has seen, which is what
R181 counts. -/
structure Exchange where
  invocation : Invocation
  phase : Phase
  /-- The byte sequences given to the transport's `write`, oldest first. -/
  writes : List (List Byte)
  /-- How often the transport's `read` was called. -/
  reads : Nat
  deriving DecidableEq, Repr

/-- The second agent (R175). None of it is state of the block (R37). -/
structure HostAgent where
  /-- Invocations not yet served, oldest first. -/
  invocations : List Invocation
  /-- The latest exchange; `none` while there has been none (Idle). -/
  exchange : Option Exchange
  /-- Command words the sequencer has issued and the block has not yet run, oldest first (R187, R223). -/
  queue : List CmdWord
  /-- The select and the data of the last read event of `port`. -/
  lastRead : Option (BitVec 4 × BitVec 64)
  deriving DecidableEq, Repr

/-- The machine. The first ten fields are the block's architectural state, "exactly the registers and buffers" of R20;
MEAS_VALID and VS_VALID are views of `meas` and `vstat`, since a register that "holds no value" is `none` (R11, R20,
R26; assumption 3). -/
structure State where
  /-- CRC_ACC (R23). -/
  crcAcc : Half
  /-- TX_VALID (R24). -/
  txValid : Bool
  /-- TXBUF (R24, R50). -/
  txBuf : Memory
  /-- RX_PRESENT (R25). -/
  rxPresent : Bool
  /-- RX_LEN (R25). -/
  rxLen : Nat
  /-- RXBUF (R25, R50). -/
  rxBuf : Memory
  /-- RX_OVF (R25). -/
  rxOvf : Bool
  /-- MEAS_VALID, MEAS_RAW and MEAS_SCALED (R26). -/
  meas : Option Measurement
  /-- VS_VALID and VSTAT (R27, R30). -/
  vstat : Option Byte
  /-- ILL_CMD (R28). -/
  illCmd : Bool
  /-- The parameter RX_CAP (R8, D12). No step changes it. -/
  rxCap : Nat
  /-- MODEL'S OWN: a reset has been applied since power came (R220; assumption 8). -/
  resetSeen : Bool
  /-- MODEL'S OWN: free values drawn so far (assumption 6). -/
  draws : Nat
  /-- MODEL'S OWN: what will happen at the ports, oldest first; `idle` from its end on (assumption 1). -/
  port : List PortEvent
  /-- The second agent (R175, R176; assumption 9). -/
  host : HostAgent
  deriving DecidableEq, Repr

/-- The block raises no exception and no command faults (R200), so there is no fault. -/
inductive Fault where
  deriving DecidableEq, Repr

/-- Why a step is refused. -/
inductive Refusal where
  /-- Raised by `exec` for a command without a meaning; no command of this model is. Safe. -/
  | notModelled (mnemonic : String)
  /-- Raised by the port (`pinsStep`, `readStep`) for a command or a read event before the first reset: "no rule of this spec holds" there
  (R220, U8). Safe. -/
  | beforeReset
  deriving DecidableEq, Repr

/-- The host agent before any invocation: Idle (R176). -/
def HostAgent.start : HostAgent := { invocations := [], exchange := none, queue := [], lastRead := none }

/-- The state right after reset: the table of R35 for the block; assumptions 1, 2, 6, 8 and 9 for the rest. -/
def State.reset : State where
  crcAcc := 0xFFFF
  txValid := false
  txBuf := []
  rxPresent := false
  rxLen := 0
  rxBuf := []
  rxOvf := false
  meas := none
  vstat := none
  illCmd := false
  rxCap := Config.rxCapDefault
  resetSeen := true
  draws := 0
  port := []
  host := HostAgent.start

end Sys2Proof.Machine
end

