-- ==== Sys2Proof/Machine/Ops.lean ====
section
/-! DEFINITION. The named operations on the buffers and registers that the meanings of the commands are written with, the
effect of reset (70_reset_and_hazards.md R220) and the effect of a reserved opcode (30_encoding.md R74). The block has no
exception to take and none to return from (60_exceptions.md R200, R205, R206). -/

namespace Sys2Proof.Machine

/-- `MemRead(space, i, 1)` (R11): the byte at index `i`, `none` where the buffer holds no value. -/
def memRead : Memory → Nat → Option Byte
  | [], _ => none
  | (x, y) :: m, i => if x = i then some y else memRead m i

/-- `MemWrite(space, i, 1, v)` (R11), keeping the indices rising. -/
def memWrite : Memory → Nat → Byte → Memory
  | [], i, v => [(i, v)]
  | (x, y) :: m, i, v =>
    if i < x then (i, v) :: (x, y) :: m
    else if i = x then (i, v) :: m
    else (x, y) :: memWrite m i v

/-- Writes the bytes of a sequence at rising indices from `i` on. -/
def memWriteAll : Memory → Nat → List Byte → Memory
  | m, _, [] => m
  | m, i, v :: vs => memWriteAll (memWrite m i v) (i + 1) vs

/-- A buffer every index of which holds no value. -/
def memNone : Memory := []

/-- `CRC_ACC <- v`. -/
def State.setCrc (s : State) (v : Half) : State := { s with crcAcc := v }

/-- TX_VALID and TXBUF. -/
def State.setTx (s : State) (valid : Bool) (buf : Memory) : State := { s with txValid := valid, txBuf := buf }

/-- RX_PRESENT, RX_LEN and RXBUF. -/
def State.setRx (s : State) (present : Bool) (len : Nat) (buf : Memory) : State :=
  { s with rxPresent := present, rxLen := len, rxBuf := buf }

/-- `RX_OVF <- b`. -/
def State.setOvf (s : State) (b : Bool) : State := { s with rxOvf := b }

/-- MEAS_VALID, MEAS_RAW and MEAS_SCALED; `none` is the absent result (R26). -/
def State.setMeas (s : State) (m : Option Measurement) : State := { s with meas := m }

/-- VS_VALID and VSTAT (R27). -/
def State.setVstat (s : State) (v : Option Byte) : State := { s with vstat := v }

/-- `ILL_CMD <- b`. -/
def State.setIll (s : State) (b : Bool) : State := { s with illCmd := b }

/-- One more free value has been drawn (assumption 6). -/
def State.nextDraw (s : State) : State := { s with draws := s.draws + 1 }

/-- What is still to come at the ports (assumption 1). -/
def State.setPort (s : State) (p : List PortEvent) : State := { s with port := p }

/-- The second agent's state. -/
def State.setHost (s : State) (h : HostAgent) : State := { s with host := h }

/-- `MEAS_VALID <- 0; VS_VALID <- 0`: what every RX command also does, so that no result outlives its frame (R145). -/
def State.dropResults (s : State) : State := (s.setMeas none).setVstat none

/-- MEAS_VALID (R26). -/
def State.measValid (s : State) : Bool := s.meas.isSome

/-- MEAS_RAW; `none` while it holds no value (R26). -/
def State.measRaw (s : State) : Option Half := s.meas.map Measurement.raw

/-- MEAS_SCALED; `none` while it holds no value (R26). -/
def State.measScaled (s : State) : Option F64 := s.meas.map Measurement.scaled

/-- VS_VALID (R27). -/
def State.vsValid (s : State) : Bool := s.vstat.isSome

/-- TXBUF[i] as the read port can see it: it holds a value only while TX_VALID = 1 (R20). -/
def State.txByte (s : State) (i : Nat) : Option Byte := if s.txValid then memRead s.txBuf i else none

/-- RXBUF[i] as a command reads it. Where RXBUF holds no value the byte is a free value (R11, R20, U6); R59 says no
command gets there, which is true of every state in which `Inv` holds. -/
def State.rxByte (s : State) (i : Nat) : Byte := (memRead s.rxBuf i).getD (Config.freeByte s.draws i)

/-- `RXBUF[0..RX_LEN)`. -/
def State.rxBytes (s : State) : List Byte := (List.range s.rxLen).map s.rxByte

/-- The frame value `RX` (R25): `none` when RX_PRESENT = 0, else `RXBUF[0..RX_LEN)`. -/
def State.rxFrame (s : State) : Option (List Byte) := if s.rxPresent then some s.rxBytes else none

/-- The request frame the host transmits: TXBUF[0..7], where it holds values (R24, R229). -/
def State.txBytes (s : State) : List (Option Byte) := (List.range Config.reqFrameLen).map s.txByte

/-- What the input `rst` does: every piece of the block's state takes its value of R35, "whatever the state was" (R220).
The parameter RX_CAP, the ports' future and the other agent are not the block's state and stay (assumption 15). -/
def resetBlock (s : State) : State :=
  { s with
    crcAcc := Config.crcInit, txValid := false, txBuf := memNone, rxPresent := false, rxLen := 0, rxBuf := memNone,
    rxOvf := false, meas := none, vstat := none, illCmd := false, resetSeen := true }

/-- What a command word with a reserved opcode does: `ILL_CMD <- 1`, "and changes no other state" (R74, R28). -/
def reservedOpcode (s : State) : State := s.setIll true

end Sys2Proof.Machine
end

