-- ==== Sys2Proof/Machine/Operands.lean ====
section
/-! DEFINITION. How operands, bytes and 16-bit values are taken apart and put together (30_encoding.md R72, R76;
45_laws_control_access.md R240), and the fields of a binary64 word (30_encoding.md R80). -/

namespace Sys2Proof.Machine

/-- `v[15:8]`, the document's `(value >> 8) & 0xFF` (R54, R240 e). -/
def highByte (v : Half) : Byte := v.extractLsb' 8 8

/-- `v[7:0]`, the document's `value & 0xFF` (R54, R240 e). -/
def lowByte (v : Half) : Byte := v.extractLsb' 0 8

/-- `{high, low}`, the document's `(high << 8) | low` (R55, R240 f). -/
def joinBytes (high low : Byte) : Half := high ++ low

/-- `zext_16(b)` (R101, R240 d). -/
def zext16 (b : Byte) : Half := b.setWidth 16

/-- A 16-bit value as two bytes, more significant first: request fields (R54). -/
def bigEndian (v : Half) : List Byte := [highByte v, lowByte v]

/-- A 16-bit value as two bytes, less significant first: the CRC on the wire (R56). -/
def littleEndian (v : Half) : List Byte := [lowByte v, highByte v]

/-- Byte `i` of a frame. The rules read a frame only below its length (R59), and so do the functions that call this; the
0 for other indices is read by none of them. -/
def byteAt (f : List Byte) (i : Nat) : Byte := f.getD i 0

/-- The low 8 bits of a host's integer: the "truncation via masking" of a too wide slave address (R72, R125, U1). -/
def maskByte (n : Nat) : Byte := BitVec.ofNat 8 n

/-- The low 16 bits of a host's integer: the same for a register address (R72, R125, U1). -/
def maskHalf (n : Nat) : Half := BitVec.ofNat 16 n

/-- Sign `s = w[63]` (R80). -/
def f64Sign (w : F64) : BitVec 1 := w.extractLsb' 63 1

/-- Biased exponent `e = w[62:52]` (R80). -/
def f64Exp (w : F64) : BitVec 11 := w.extractLsb' 52 11

/-- Fraction `f = w[51:0]` (R80). -/
def f64Frac (w : F64) : BitVec 52 := w.extractLsb' 0 52

/-- The word `{s, e, f}` (R80). -/
def f64Word (s : BitVec 1) (e : BitVec 11) (f : BitVec 52) : F64 := s ++ e ++ f

/-- The word is a NaN: `e = 2047` and `f ≠ 0` (R80). -/
def f64IsNaN (w : F64) : Bool := f64Exp w == 2047 && f64Frac w != 0

/-- The word is +infinity or -infinity: `e = 2047` and `f = 0` (R80). -/
def f64IsInf (w : F64) : Bool := f64Exp w == 2047 && f64Frac w == 0

/-- The word has a finite value: `e ≠ 2047` (R80). -/
def f64IsFinite (w : F64) : Bool := f64Exp w != 2047

end Sys2Proof.Machine
end

