-- ==== Sys2Proof/Machine/Flags.lean ====
section
/-! DEFINITION. Every flag word of the block: STATUS (10_state.md R29) and VSTAT (10_state.md R30, 43_frame_validation.md
R160), bit by bit. -/

namespace Sys2Proof.Machine

/-- A word of eight flags, bit 7 first. -/
def flagWord (b7 b6 b5 b4 b3 b2 b1 b0 : Bool) : Byte :=
  BitVec.ofBool b7 ++ BitVec.ofBool b6 ++ BitVec.ofBool b5 ++ BitVec.ofBool b4 ++
    BitVec.ofBool b3 ++ BitVec.ofBool b2 ++ BitVec.ofBool b1 ++ BitVec.ofBool b0

/-- STATUS: 5 ILL_CMD, 4 VS_VALID, 3 MEAS_VALID, 2 RX_OVF, 1 RX_PRESENT, 0 TX_VALID; bits 7:6 read as 0 (R29). A view of
the flags, not state. -/
def State.status (s : State) : Byte :=
  flagWord false false s.illCmd s.vsValid s.measValid s.rxOvf s.rxPresent s.txValid

/-- VSTAT of an absent frame: NO_FRAME and REJECT, 0x81 (R160). -/
def vstatNoFrame : Byte := flagWord true false false false false false false true

/-- VSTAT of a present frame shorter than 5 bytes: TOO_SHORT and REJECT, 0x82 (R160). -/
def vstatTooShort : Byte := flagWord true false false false false false true false

/-- VSTAT of a frame of 5 bytes or more from its five findings: 6 ADDR_MISMATCH, 5 BC_MISMATCH, 4 FC_MISMATCH,
3 CRC_MISMATCH, 2 LEN_SUSPICIOUS; 7 REJECT is the OR of the four mismatches and not of the length (R160, R163). -/
def vstatChecked (addr bc fc crc len : Bool) : Byte :=
  flagWord (crc || fc || bc || addr) addr bc fc crc len false false

/-- VSTAT[7]: `FrameError` when set, `ValidatedFrame` when clear (R27, R164). -/
def rejects (v : Byte) : Bool := v.getLsbD 7

end Sys2Proof.Machine
end

