-- ==== Sys2Proof/Machine/Crc.lean ====
section
/-! DEFINITION. The CRC-16/MODBUS engine: the three functions and the two commands that drive CRC_ACC (40_crc.md). -/

namespace Sys2Proof.Machine

/-- `CrcShift(a)`, the bit step: the low bit is tested before the logical shift (R100). -/
def crcShift (a : Half) : Half := if a.getLsbD 0 then (a >>> 1) ^^^ Config.crcPoly else a >>> 1

/-- `n` bit steps. -/
def crcShifts : Nat → Half → Half
  | 0, x => x
  | n + 1, x => crcShifts n (crcShift x)

/-- `CrcByte(a, b)`: the byte into the low 8 bits, then exactly 8 bit steps (R101). -/
def crcByte (a : Half) (b : Byte) : Half := crcShifts Config.crcStepsPerByte (a ^^^ zext16 b)

/-- `CrcFrom(a, s)`: the bytes in sequence order, offset 0 first (R102). -/
def crcFrom (a : Half) : List Byte → Half
  | [] => a
  | b :: s => crcFrom (crcByte a b) s

/-- `ComputeCrc(s) = CrcFrom(0xFFFF, s)`: no final XOR, no reflection or swap of the result (R102). -/
def computeCrc (s : List Byte) : Half := crcFrom Config.crcInit s

/-- CRC.INIT: `CRC_ACC <- 0xFFFF` (R104). -/
def execCrcInit (s : State) : Host.Outcome State Fault Refusal := .next (s.setCrc Config.crcInit)

/-- CRC.UPDATE b: `CRC_ACC <- CrcByte(CRC_ACC, b)` (R105). -/
def execCrcUpdate (b : Byte) (s : State) : Host.Outcome State Fault Refusal := .next (s.setCrc (crcByte s.crcAcc b))

end Sys2Proof.Machine
end

