-- ==== Sys2Proof/Machine/Encoder.lean ====
section
/-! DEFINITION. The request frame encoder: its two functions and its two commands (41_request_encoder.md). -/

namespace Sys2Proof.Machine

/-- `BuildBody(sa, ra)`: slave address, function code, register address and register count, both big-endian (R120). -/
def buildBody (sa : Byte) (ra : Half) : List Byte :=
  [sa, Config.funcCode] ++ bigEndian ra ++ bigEndian Config.regCount

/-- `BuildFrame(sa, ra)`: the body and its CRC, low byte first (R121). -/
def buildFrame (sa : Byte) (ra : Half) : List Byte :=
  buildBody sa ra ++ littleEndian (computeCrc (buildBody sa ra))

/-- ENC.BUILD sa, ra: the frame into TXBUF[0..7], `TX_VALID <- 1`, and CRC_ACC left with the frame's CRC, which starts
from 0xFFFF whatever CRC_ACC held (R122). -/
def execEncBuild (sa : Byte) (ra : Half) (s : State) : Host.Outcome State Fault Refusal :=
  .next ((s.setTx true (memWriteAll s.txBuf 0 (buildFrame sa ra))).setCrc (computeCrc (buildBody sa ra)))

/-- TX.DISCARD: `TX_VALID <- 0`, after which TXBUF holds no value (R123). -/
def execTxDiscard (s : State) : Host.Outcome State Fault Refusal := .next (s.setTx false memNone)

end Sys2Proof.Machine
end

