-- ==== Sys2Proof/Machine/Scale.lean ====
section
/-! DEFINITION. The scaling multiplier: exact rationals, `RoundMag` (30_encoding.md R81), `U16ToF64` (R82), `Mag` (R80)
and `Scale` (42_response_parser.md R139). -/

namespace Sys2Proof.Machine

/-- A rational number `num / den × 2^exp`, not negative; `den` is not 0 where the rules use one. -/
structure Ratio where
  num : Nat
  den : Nat
  exp : Int
  deriving DecidableEq, Repr

/-- `2^e ≤ n / d`, for `d ≠ 0`. -/
def twoPowLe (e : Int) (n d : Nat) : Bool :=
  match e with
  | .ofNat k => d * 2 ^ k ≤ n
  | .negSucc k => d ≤ n * 2 ^ (k + 1)

/-- The integer `E` with `2^E ≤ q < 2^(E+1)`, for `q > 0` (R81): with `l` the difference of the two logarithms it is `l`
or `l - 1`. -/
def Ratio.floorLog2 (q : Ratio) : Int :=
  let l : Int := (Nat.log2 q.num : Int) - (Nat.log2 q.den : Int)
  (if twoPowLe l q.num q.den then l else l - 1) + q.exp

/-- The integer nearest to `n / d`, the even one of the two when `n / d` lies exactly halfway (R81). -/
def roundHalfEven (n d : Nat) : Nat :=
  let m := n / d
  let r := n % d
  if 2 * r < d then m else if d < 2 * r then m + 1 else if m % 2 = 0 then m else m + 1

/-- The integer nearest to `q / 2^k`, ties to even. -/
def Ratio.roundAt (q : Ratio) (k : Int) : Nat :=
  match q.exp - k with
  | .ofNat j => roundHalfEven (q.num * 2 ^ j) q.den
  | .negSucc j => roundHalfEven q.num (q.den * 2 ^ (j + 1))

/-- The 63-bit field `{e, f}`. -/
def magField (e f : Nat) : BitVec 63 := BitVec.ofNat 11 e ++ BitVec.ofNat 52 f

/-- The end of R81, for a significand `M < 2^53`: overflow to infinity, zero and subnormals, normal numbers. -/
def packField (M : Nat) (E : Int) : BitVec 63 :=
  if E > 1023 then magField 2047 0
  else if M < 2 ^ 52 then magField 0 M
  else magField (E + 1023).toNat (M - 2 ^ 52)

/-- The field of a rounded significand `M ≤ 2^53` at exponent `E`: first the carry into the next exponent (R81). -/
def packMag (M : Nat) (E : Int) : BitVec 63 :=
  if M = 2 ^ 53 then packField (2 ^ 52) (E + 1) else packField M E

/-- `RoundMag(q)` (R81): the field of the binary64 word nearest to `q`, ties to even. -/
def roundMag (q : Ratio) : BitVec 63 :=
  if q.num = 0 then 0
  else
    let E := max q.floorLog2 (-1022)
    packMag (q.roundAt (E - 52)) E

/-- `Mag(w)`, for a finite word (R80). -/
def f64Mag (w : F64) : Ratio :=
  let e := (f64Exp w).toNat
  let f := (f64Frac w).toNat
  if e = 0 then { num := f, den := 1, exp := -1074 } else { num := 2 ^ 52 + f, den := 1, exp := (e : Int) - 1075 }

/-- The exact product of a raw register and a rational (R139 a). -/
def Ratio.mulNat (n : Nat) (q : Ratio) : Ratio := { q with num := n * q.num }

/-- `U16ToF64(r)`: the word whose value is exactly `r` (R82). -/
def u16ToF64 (r : Half) : F64 :=
  let n := r.toNat
  let k := Nat.log2 n
  if n = 0 then 0 else f64Word 0 (BitVec.ofNat 11 (1023 + k)) (BitVec.ofNat 52 ((n - 2 ^ k) * 2 ^ (52 - k)))

/-- The NaN made of 64 free bits: exponent field 2047, and a fraction that is any one but 0 (R139, U7). Every NaN word is
made from its own bits, so the free value ranges over all of them. -/
def nanOf (x : BitVec 64) : F64 := f64Word (f64Sign x) 2047 (if f64Frac x = 0 then 1 else f64Frac x)

/-- `Scale(raw, sf)` (R139), where `nan` is the free NaN word of this use. -/
def scale (raw : Half) (sf nan : F64) : F64 :=
  if f64IsNaN sf then nan
  else if f64IsInf sf then (if raw = 0 then nan else sf)
  else f64Sign sf ++ roundMag ((f64Mag sf).mulNat raw.toNat)

/-- The free NaN word of draw `n` (assumption 5). -/
def freeNaNWord (n : Nat) : F64 := nanOf (Config.freeNaN n)

end Sys2Proof.Machine
end

