-- ==== Sys2Proof/Machine/Parser.lean ====
section
/-! DEFINITION. The response frame parser: loading the frame and decoding it (42_response_parser.md). -/

namespace Sys2Proof.Machine

/-- RX.CLEAR: the frame becomes absent, and RXBUF holds no value at any index (R135, R145). -/
def execRxClear (s : State) : Host.Outcome State Fault Refusal :=
  .next ((s.setRx false 0 memNone).setOvf false).dropResults

/-- RX.OPEN: the frame becomes present and empty (R136, R145). -/
def execRxOpen (s : State) : Host.Outcome State Fault Refusal :=
  .next ((s.setRx true 0 memNone).setOvf false).dropResults

/-- RX.PUSH b: append at the old RX_LEN, or drop the byte and set RX_OVF when the buffer is full; the results are dropped
either way (R137, R145, R204, R243). -/
def execRxPush (b : Byte) (s : State) : Host.Outcome State Fault Refusal :=
  if s.rxLen < s.rxCap then
    .next (s.setRx true (s.rxLen + 1) (memWrite s.rxBuf s.rxLen b)).dropResults
  else
    .next (s.setOvf true).dropResults

/-- `DecodeFrame(rx, sf)` (R138): the absent result for an absent frame or one of less than 5 bytes, else the big-endian
value at offsets 3 and 4 and its scaled product. Nothing else of the frame is looked at (R141). -/
def decodeFrame (rx : Option (List Byte)) (sf nan : F64) : Option Measurement :=
  match rx with
  | none => none
  | some f =>
    if f.length < Config.minRespLen then none
    else
      let raw := joinBytes (byteAt f Config.respValueOffsetHi) (byteAt f Config.respValueOffsetLo)
      some { raw := raw, scaled := scale raw sf nan }

/-- DEC.DECODE sf (R140): MEAS takes `DecodeFrame(RX, sf)`, the absent result included; the frame is not consumed. -/
def execDecDecode (sf : F64) (s : State) : Host.Outcome State Fault Refusal :=
  .next (s.setMeas (decodeFrame s.rxFrame sf (freeNaNWord s.draws))).nextDraw

end Sys2Proof.Machine
end

