-- ==== Sys2Proof/Machine/Validate.lean ====
section
/-! DEFINITION. Strict frame validation (43_frame_validation.md). -/

namespace Sys2Proof.Machine

/-- The CRC recomputed "over all bytes except the trailing 2" (R160). -/
def recomputedCrc (f : List Byte) : Half := computeCrc (f.take (f.length - 2))

/-- The transmitted CRC, `{rx[L-1], rx[L-2]}`: the last byte is the high one (R56, R160). -/
def transmittedCrc (f : List Byte) : Half := joinBytes (byteAt f (f.length - 1)) (byteAt f (f.length - 2))

/-- `ValidateFrame(rx, ea)` (R160). All four content checks are made for 5 bytes or more (R204). -/
def validateFrame (rx : Option (List Byte)) (ea : Byte) : Byte :=
  match rx with
  | none => vstatNoFrame
  | some f =>
    if f.length < Config.minRespLen then vstatTooShort
    else
      vstatChecked
        (byteAt f 0 != ea)
        (byteAt f 2 != Config.expectedByteCount)
        (byteAt f 1 != Config.funcCode)
        (recomputedCrc f != transmittedCrc f)
        (f.length != Config.expectedRespLen)

/-- CRC_ACC after DEC.VALIDATE: the recomputed CRC for a present frame of 5 bytes or more, else the old value (R161). -/
def crcAfterValidate (rx : Option (List Byte)) (old : Half) : Half :=
  match rx with
  | none => old
  | some f => if f.length < Config.minRespLen then old else recomputedCrc f

/-- DEC.VALIDATE ea (R161). -/
def execDecValidate (ea : Byte) (s : State) : Host.Outcome State Fault Refusal :=
  .next ((s.setVstat (some (validateFrame s.rxFrame ea))).setCrc (crcAfterValidate s.rxFrame s.crcAcc)).nextDraw

end Sys2Proof.Machine
end

