-- ==== Sys2Proof/Machine/Dispatch.lean ====
section
/-! DEFINITION. One arm per command of the opcode map (30_encoding.md R73). -/

namespace Sys2Proof.Machine

def exec (i : Instr) (s : State) : Host.Outcome State Fault Refusal :=
  match i with
  | .crcInit => Sys2Proof.Machine.execCrcInit s
  | .crcUpdate b => Sys2Proof.Machine.execCrcUpdate b s
  | .encBuild sa ra => Sys2Proof.Machine.execEncBuild sa ra s
  | .txDiscard => Sys2Proof.Machine.execTxDiscard s
  | .rxClear => Sys2Proof.Machine.execRxClear s
  | .rxOpen => Sys2Proof.Machine.execRxOpen s
  | .rxPush b => Sys2Proof.Machine.execRxPush b s
  | .decDecode sf => Sys2Proof.Machine.execDecDecode sf s
  | .decValidate ea => Sys2Proof.Machine.execDecValidate ea s

end Sys2Proof.Machine
end

