-- ==== Sys2Proof/Machine/ReadPort.lean ====
section
/-! DEFINITION. The read port (10_state.md R32): the sixteen items the host can observe. -/

namespace Sys2Proof.Machine

/-- `zext_64` of an item of `w` bits, or of the item's own width of the free value `u` where the item holds no value
(R20, R32). -/
def portItem {w : Nat} (item : Option (BitVec w)) (u : BitVec 64) : BitVec 64 :=
  (item.getD (u.setWidth w)).setWidth 64

/-- `rd_data` for `rd_sel = sel`, by the table of R32; `u` is the free value shown for an item that holds no value. RXBUF
is not readable. RX_LEN is "read as 16 bits": its low 16 (assumption 14). -/
def readPort (s : State) (sel : BitVec 4) (u : BitVec 64) : BitVec 64 :=
  match sel.toNat with
  | 0 => portItem (some s.status) u
  | 1 => portItem (some s.crcAcc) u
  | 2 => portItem (some (BitVec.ofNat 16 s.rxLen)) u
  | 3 => portItem s.measRaw u
  | 4 => portItem s.measScaled u
  | 5 => portItem s.vstat u
  | 6 => portItem (some Config.funcCode) u
  | 7 => portItem (some Config.regCount) u
  | n => portItem (s.txByte (n - 8)) u

/-- The item selected holds a value, so the host may read it (R20, R226). -/
def State.holdsValue (s : State) (sel : BitVec 4) : Bool :=
  match sel.toNat with
  | 0 => true
  | 1 => true
  | 2 => true
  | 3 => s.measValid
  | 4 => s.measValid
  | 5 => s.vsValid
  | 6 => true
  | 7 => true
  | n => (s.txByte (n - 8)).isSome

/-- The read port with the free value of the next draw. -/
def State.portRead (s : State) (sel : BitVec 4) : BitVec 64 := readPort s sel (Config.freeRead s.draws sel)

end Sys2Proof.Machine
end

