-- ==== Sys2Proof/Machine/Port.lean ====
section
/-! DEFINITION. What one event at the block's ports does (30_encoding.md R70, R74; 10_state.md R32; 70_reset_and_hazards.md
R220). A command or a read before the first reset is refused, since no rule holds there (R220, U8). -/

namespace Sys2Proof.Machine

/-- A command word that has been issued: the opcode is examined first (R204); a command has its meaning, a reserved
opcode sets ILL_CMD (R74). -/
def issue (cw : CmdWord) (s : State) : Host.Outcome State Fault Refusal :=
  match decode cw with
  | .ok i => exec i s
  | .error (.reservedOpcode _) => .next (reservedOpcode s)

/-- One sample of the inputs. `rst` dominates whatever command is being issued (R220); a word with `cmd_valid = 0` is no
command (R70), before the first reset too (assumption 8). -/
def pinsStep (rst cmdValid : Bool) (cw : CmdWord) (s : State) : Host.Outcome State Fault Refusal :=
  if rst then .next (resetBlock s)
  else if cmdValid then (if s.resetSeen then issue cw s else .refused .beforeReset)
  else .next s

/-- The host reads the read port: no effect on the block (R32); the host has the data, and a free value counts as drawn. -/
def portReadEvent (sel : BitVec 4) (s : State) : State :=
  (s.setHost { s.host with lastRead := some (sel, s.portRead sel) }).nextDraw

/-- A read of the read port. -/
def readStep (sel : BitVec 4) (s : State) : Host.Outcome State Fault Refusal :=
  if s.resetSeen then .next (portReadEvent sel s) else .refused .beforeReset

/-- A command word presented with `cmd_valid = 1` and no reset (R70). -/
def cmdEvent (cw : CmdWord) : PortEvent := .pins false true cw

end Sys2Proof.Machine
end

