-- ==== Sys2Proof/Machine/Exchange.lean ====
section
/-! DEFINITION. The second agent: the host's exchange sequencer with the transport around it (44_exchange_sequencer.md).
It drives the block through the block's own ports and adds no state and no command to it (R175). -/

namespace Sys2Proof.Machine

/-- The exchange state of a phase, by the second column of R187 (R176 to R179): RequestSent while TX.DISCARD runs,
AwaitingResponse from the wait on. A transport failure has no exchange state (R184, U12): `none`. -/
def Phase.state : Phase → Option ExchangeState
  | .start => some .idle
  | .build => some .idle
  | .discard => some .requestSent
  | .wait _ => some .awaitingResponse
  | .load => some .awaitingResponse
  | .validate => some .awaitingResponse
  | .decode => some .awaitingResponse
  | .done (.measurement m) => some (.completedMeasurement m)
  | .done .absent => some .completedAbsent
  | .done (.transportError _) => none

/-- The host's exchange state variable (R176). -/
def HostAgent.state (h : HostAgent) : Option ExchangeState :=
  match h.exchange with
  | none => some .idle
  | some e => e.phase.state

/-- The constraints on the host's parameters: QUIESCENCE_DELAY positive, READ_MAX_BYTES at least 1, at most RX_CAP so that
"the host passes at most RX_CAP bytes per frame" (R231), and at least 7 for a host that validates (R182, D30). -/
def Invocation.keepsRules (cap : Nat) (inv : Invocation) : Bool :=
  decide (1 ≤ inv.quiescence) && decide (1 ≤ inv.readMaxBytes) && decide (inv.readMaxBytes ≤ cap) &&
    (!inv.strict || decide (Config.expectedRespLen ≤ inv.readMaxBytes))

/-- The bytes the transport's one `read(maxBytes)` returned: no more than were asked for (R182). -/
def Invocation.received (inv : Invocation) (bs : List Byte) : List Byte := bs.take inv.readMaxBytes

/-- Rows 7a and 7b of R187: nothing when the read returned no sequence, else RX.OPEN and one RX.PUSH per byte. -/
def Invocation.loadCommands (inv : Invocation) : List Instr :=
  match inv.onRead with
  | .fail _ => []
  | .nothing => []
  | .bytes bs => .rxOpen :: (inv.received bs).map .rxPush

/-- The block commands of a phase, by the last column of R187. -/
def Phase.commands (inv : Invocation) : Phase → List Instr
  | .start => []
  | .build => [.rxClear, .encBuild inv.request.slaveAddress inv.request.registerAddress]
  | .discard => [.txDiscard]
  | .wait _ => []
  | .load => inv.loadCommands
  | .validate => [.decValidate inv.request.slaveAddress]
  | .decode => [.decDecode inv.scale]
  | .done _ => []

/-- The phase once the host has judged the frame: a rejected frame is not decoded and gives no measurement (R165;
assumption 13). -/
def Phase.judged (rejected : Bool) : Phase := if rejected then .done .absent else .decode

/-- The phase that follows a loaded frame: in the strict sequence DEC.VALIDATE, always (R165, R187 row 8); in the plain one
the frame is judged by RX_OVF alone (R231; assumption 21). -/
def Invocation.afterLoad (inv : Invocation) (overflow : Bool) : Phase := if inv.strict then .validate else .judged overflow

/-- A new exchange for an invocation, from Idle (R176). -/
def Exchange.begin (inv : Invocation) : Exchange := { invocation := inv, phase := .start, writes := [], reads := 0 }

/-- The latest exchange becomes `e`, with no command waiting. -/
def State.setExchange (s : State) (e : Exchange) : State := s.setHost { s.host with exchange := some e, queue := [] }

/-- The exchange enters phase `p`, and the phase's commands wait to be run, in order. -/
def State.enter (s : State) (e : Exchange) (p : Phase) : State :=
  s.setHost { s.host with exchange := some { e with phase := p }, queue := (p.commands e.invocation).map encode }

/-- The host reads TXBUF[0..7] through the read port, in index order (R187 row 3, R229), without looking at TX_VALID first;
what it reads is free where a port event since ENC.BUILD has made TX_VALID 0 (assumption 22). -/
def State.readTxFrame (s : State) : List Byte :=
  (List.range Config.reqFrameLen).map fun i => (s.portRead (BitVec.ofNat 4 (8 + i))).setWidth 8

/-- The host reads STATUS[2], RX_OVF (R29, R231). -/
def State.readOverflow (s : State) : Bool := (s.portRead 0).getLsbD 2

/-- The host reads VSTAT[7] (R165), without looking at VS_VALID first; what it reads is free where a port event since
DEC.VALIDATE has made VS_VALID 0 (assumption 22). -/
def State.readReject (s : State) : Bool := (s.portRead 5).getLsbD 7

/-- The host reads the result: MEAS_VALID in STATUS, and MEAS_RAW and MEAS_SCALED when it is 1 (R187 row 10, R226). -/
def State.readOutcome (s : State) : ExchangeOutcome :=
  if (s.portRead 0).getLsbD 3 then
    .measurement { raw := (s.portRead 3).setWidth 16, scaled := s.portRead 4 }
  else .absent

/-- What the host does when the commands of the exchange's phase have run, by the table of R187. The strict sequence issues
DEC.VALIDATE after every load (R165). A frame that overflowed the buffer is treated as a rejected frame (R231), in the strict
sequence after it has been validated, as in program P6; a rejected frame ends the exchange as absent (assumptions 13 and 21).
The rows are carried out as they stand whatever other events fell between them (assumption 22). -/
def exchangeStep (e : Exchange) (s : State) : State :=
  let inv := e.invocation
  match e.phase with
  | .start => s.enter e .build
  | .build =>
    let written := { e with writes := e.writes ++ [s.readTxFrame] }
    (match inv.onWrite with
      | .ok => s.enter written .discard
      | .fail cause => s.enter written (.done (.transportError cause))).nextDraw
  | .discard => s.enter e (.wait inv.quiescence)
  | .wait (n + 1) => s.enter e (.wait n)
  | .wait 0 =>
    let read := { e with reads := e.reads + 1 }
    match inv.onRead with
    | .fail cause => s.enter read (.done (.transportError cause))
    | .nothing => s.enter read .load
    | .bytes _ => s.enter read .load
  | .load => (s.enter e (inv.afterLoad s.readOverflow)).nextDraw
  | .validate => (s.enter e (.judged (s.readReject || s.readOverflow))).nextDraw
  | .decode => (s.enter e (.done s.readOutcome)).nextDraw
  | .done _ => s

/-- The host takes up the next invocation, if there is one; without one nothing happens and the block holds its state. -/
def nextInvocation (s : State) : State :=
  match s.host.invocations with
  | [] => s
  | inv :: rest => (s.setHost { s.host with invocations := rest }).setExchange (Exchange.begin inv)

/-- One step of the host's own, when none of its commands is waiting. "One exchange runs to completion before another may
begin" (R188): the next invocation is taken up when there has been no exchange or the last one has ended. -/
def hostStep (s : State) : State :=
  match s.host.exchange with
  | none => nextInvocation s
  | some e =>
    match e.phase with
    | .done _ => nextInvocation s
    | _ => exchangeStep e s

/-- The sequencer's turn: its next command is presented to the block, or, when "the previous one is complete" (R223) and
none is left, the host makes its own step. Before the first reset, where no rule holds (R220, U8), the command is refused and
the host's own step is made all the same, its reads of the read port at rows 3, 7, 8 and 10 included: the model's choice
(assumption 8). -/
def sequencerTurn (s : State) : Host.Outcome State Fault Refusal :=
  match s.host.queue with
  | cw :: rest => pinsStep false true cw (s.setHost { s.host with queue := rest })
  | [] => .next (hostStep s)

/-- One event at the ports. -/
def portStep (ev : PortEvent) (s : State) : Host.Outcome State Fault Refusal :=
  match ev with
  | .pins rst cmdValid cw => pinsStep rst cmdValid cw s
  | .read sel => readStep sel s
  | .idle => sequencerTurn s

/-- The word that the next step presents to the block with `cmd_valid = 1` and no reset, if it presents one: from the ports'
list, or on the sequencer's turn from its queue. -/
def State.nextWord (s : State) : Option CmdWord :=
  match s.port with
  | .pins false true cw :: _ => some cw
  | .pins false false _ :: _ => none
  | .pins true _ _ :: _ => none
  | .read _ :: _ => none
  | .idle :: _ => s.host.queue.head?
  | [] => s.host.queue.head?

/-- The first waiting command word is used up. -/
def State.dequeue (s : State) : State := s.setHost { s.host with queue := s.host.queue.tail }

/-- The state with the event of the next step used up, and on the sequencer's turn its first waiting word. -/
def State.taken (s : State) : State :=
  match s.port with
  | .pins _ _ _ :: rest => s.setPort rest
  | .read _ :: rest => s.setPort rest
  | .idle :: rest => (s.setPort rest).dequeue
  | [] => s.dequeue

end Sys2Proof.Machine
end

