-- ==== Sys2Proof/Machine/Step.lean ====
section
/-! DEFINITION. One step of the machine, and how a command word is laid where the next step takes it from. -/

namespace Sys2Proof.Machine

/-- One step: the next event at the ports, one at a time (R62); a stream of events that has ended is idle from then on
(assumptions 1 and 9). -/
def step (s : State) : Host.Outcome State Fault Refusal :=
  match s.port with
  | ev :: rest => portStep ev (s.setPort rest)
  | [] => portStep .idle s

/-- The command word presented at the command port with `cmd_valid = 1` as the very next event, and the reset that must
have come before any command (R220). The block stores no program (R22, R65), so this is the only way a command comes to
run (assumption 1). -/
def State.withFetchWord (s : State) (nbits w : Nat) : State :=
  { s with port := cmdEvent (cmdWordOfNat nbits w) :: s.port, resetSeen := true }

end Sys2Proof.Machine
end

