-- ==== Sys2Proof/Machine/Asm.lean ====
section
/-! DEFINITION. The assembler's view of the commands (30_encoding.md R76, R77): lines with a host's integers as operands,
the two pseudo-commands, the words a line assembles to, and how lines and words are written. Notation for hosts and
examples; nothing of it is in the block. -/

namespace Sys2Proof.Machine

/-- The operand `sf` of a line: 64 bits in hexadecimal, or a decimal literal `± digits / 10^places` (R76; the minus sign is
the model's choice, assumption 20). -/
inductive SfOperand where
  | bits (w : F64)
  | decimal (neg : Bool) (digits places : Nat)
  deriving DecidableEq, Repr

/-- One line: a command of R73 with integer operands, or a pseudo-command of R77. -/
inductive AsmLine where
  | crcInit
  | crcUpdate (b : Nat)
  | encBuild (sa ra : Nat)
  | txDiscard
  | rxClear
  | rxOpen
  | rxPush (b : Nat)
  | decDecode (sf : SfOperand)
  | decValidate (ea : Nat)
  /-- `CRC.COMPUTE b0, ..., b(n-1)`. -/
  | crcCompute (bs : List Nat)
  /-- `RX.LOAD b0, ..., b(n-1)`, or `RX.LOAD none`. -/
  | rxLoad (bs : Option (List Nat))
  deriving DecidableEq, Repr

/-- The word of a scale operand: a decimal literal stands for "the binary64 value nearest to that decimal number, ties to
even" (R76, R81), and one with a minus sign for that value with the sign bit set (assumption 20). -/
def SfOperand.word : SfOperand → F64
  | .bits w => w
  | .decimal neg digits places => BitVec.ofBool neg ++ roundMag { num := digits, den := 10 ^ places, exp := 0 }

/-- Every integer of the line fits its field: the caller's side of `buildRequest` (R72, R125, U1). -/
def AsmLine.WellFormed : AsmLine → Bool
  | .crcInit => true
  | .crcUpdate b => operandFits 8 b
  | .encBuild sa ra => operandFits 8 sa && operandFits 16 ra
  | .txDiscard => true
  | .rxClear => true
  | .rxOpen => true
  | .rxPush b => operandFits 8 b
  | .decDecode _ => true
  | .decValidate ea => operandFits 8 ea
  | .crcCompute bs => bs.all (operandFits 8)
  | .rxLoad none => true
  | .rxLoad (some bs) => bs.all (operandFits 8)

/-- `CRC.COMPUTE` (R77). -/
def expandCrcCompute (bs : List Byte) : List Instr := .crcInit :: bs.map .crcUpdate

/-- `RX.LOAD` (R77); `none` is the absent frame. -/
def expandRxLoad : Option (List Byte) → List Instr
  | none => [.rxClear]
  | some bs => .rxOpen :: bs.map .rxPush

/-- The commands a line stands for. A host's integer that does not fit is cut to its low 8 or 16 bits (R72, R125). -/
def AsmLine.expand : AsmLine → List Instr
  | .crcInit => [.crcInit]
  | .crcUpdate b => [.crcUpdate (maskByte b)]
  | .encBuild sa ra => [.encBuild (maskByte sa) (maskHalf ra)]
  | .txDiscard => [.txDiscard]
  | .rxClear => [.rxClear]
  | .rxOpen => [.rxOpen]
  | .rxPush b => [.rxPush (maskByte b)]
  | .decDecode sf => [.decDecode sf.word]
  | .decValidate ea => [.decValidate (maskByte ea)]
  | .crcCompute bs => expandCrcCompute (bs.map maskByte)
  | .rxLoad bs => expandRxLoad (bs.map fun l => l.map maskByte)

/-- The command words of a line; unused bits of `data` are 0 (R76). -/
def AsmLine.assemble (l : AsmLine) : List CmdWord := l.expand.map encode

/-- Commands issued one after another, each a step from the state the one before left (R62). -/
def execAll : List Instr → State → Host.Outcome State Fault Refusal
  | [], s => .next s
  | i :: is, s =>
    match exec i s with
    | .next s' => execAll is s'
    | .fault r => .fault r
    | .refused r => .refused r

/-- The byte a command gives to the accumulator, if it is a CRC.UPDATE. -/
def updateByte : Instr → Option Byte
  | .crcInit => none
  | .crcUpdate b => some b
  | .encBuild _ _ => none
  | .txDiscard => none
  | .rxClear => none
  | .rxOpen => none
  | .rxPush _ => none
  | .decDecode _ => none
  | .decValidate _ => none

/-- "The bytes given to CRC.UPDATE", in order, by a sequence of commands (R23, R108). -/
def updateBytes (is : List Instr) : List Byte := is.filterMap updateByte

/-- One hexadecimal digit, in capitals. -/
def hexDigit (n : Nat) : Char := if n < 10 then Char.ofNat (48 + n) else Char.ofNat (55 + n)

/-- The low `k` hexadecimal digits of a number, most significant first. -/
def hexText : Nat → Nat → List Char
  | 0, _ => []
  | k + 1, n => hexDigit (n / 16 ^ k % 16) :: hexText k n

/-- A command word written `op:data`, "with 1 and 16 hexadecimal digits" (R76). -/
def wordText (cw : CmdWord) : List Char := hexText 1 (opcode cw).toNat ++ ':' :: hexText 16 (dataField cw).toNat

/-- A line of text up to its comment; "a `;` starts a comment" (R76). -/
def uncomment (t : List Char) : List Char := t.takeWhile (· != ';')

/-- Text without the blanks around it. -/
def trim (t : List Char) : List Char := ((t.dropWhile Char.isWhitespace).reverse.dropWhile Char.isWhitespace).reverse

/-- Operands separated by commas (R76); `[]` for blank text. -/
def operands (t : List Char) : List (List Char) :=
  if (trim t).isEmpty then []
  else
    let f (c : Char) (acc : List (List Char)) : List (List Char) :=
      if c = ',' then [] :: acc else match acc with
        | [] => [[c]]
        | x :: xs => (c :: x) :: xs
    (t.foldr f [[]]).map trim

/-- The value of a digit in base 10 or 16. -/
def digitValue (base : Nat) (c : Char) : Option Nat :=
  let n := c.toNat
  let v := if 48 ≤ n ∧ n ≤ 57 then n - 48 else if 65 ≤ n ∧ n ≤ 70 then n - 55 else if 97 ≤ n ∧ n ≤ 102 then n - 87 else 16
  if v < base then some v else none

/-- Digits read into `acc`. -/
def readDigits (base : Nat) (acc : Nat) : List Char → Option Nat
  | [] => some acc
  | c :: t => match digitValue base c with
    | some v => readDigits base (acc * base + v) t
    | none => none

/-- An integer operand, "in hexadecimal with `0x` or in decimal" (R76). -/
def readNat : List Char → Option Nat
  | [] => none
  | '0' :: 'x' :: c :: t => readDigits 16 0 (c :: t)
  | t => readDigits 10 0 t

/-- The operand `sf`: a decimal literal with a point, else 64 bits in hexadecimal (R76). That a hexadecimal word may have
fewer than 16 digits, or more with leading zeros, and a decimal literal a minus sign or no digit on one side of its point
(`0x1`, `-0.1`, `.5`, `5.`), is this model's choice (assumption 20). -/
def readSf (t : List Char) : Option SfOperand :=
  if t.contains '.' then
    let neg := t.head? == some '-'
    let u := if neg then t.tail else t
    let whole := u.takeWhile (· != '.')
    let frac := (u.dropWhile (· != '.')).tail
    if (whole ++ frac).isEmpty then none
    else (readDigits 10 0 (whole ++ frac)).map fun d => .decimal neg d frac.length
  else match t with
    | '0' :: 'x' :: c :: r => match readDigits 16 0 (c :: r) with
      | some n => if operandFits 64 n then some (.bits (BitVec.ofNat 64 n)) else none
      | none => none
    | _ => none

/-- A command line from its mnemonic and its operands (R73, R76, R77). -/
def readCommand (name : List Char) (ops : List (List Char)) : Option AsmLine :=
  if name = "CRC.COMPUTE".toList then (ops.mapM readNat).map .crcCompute
  else if name = "RX.LOAD".toList then
    (if ops = ["none".toList] then some (.rxLoad none) else (ops.mapM readNat).map fun bs => .rxLoad (some bs))
  else match ops with
    | [] =>
      if name = "CRC.INIT".toList then some .crcInit
      else if name = "TX.DISCARD".toList then some .txDiscard
      else if name = "RX.CLEAR".toList then some .rxClear
      else if name = "RX.OPEN".toList then some .rxOpen
      else none
    | [x] =>
      if name = "CRC.UPDATE".toList then (readNat x).map .crcUpdate
      else if name = "RX.PUSH".toList then (readNat x).map .rxPush
      else if name = "DEC.VALIDATE".toList then (readNat x).map .decValidate
      else if name = "DEC.DECODE".toList then (readSf x).map .decDecode
      else none
    | [x, y] =>
      if name = "ENC.BUILD".toList then
        match readNat x, readNat y with
        | some sa, some ra => some (.encBuild sa ra)
        | _, _ => none
      else none
    | _ => none

/-- One line of text: `some none` for a line without a command, `none` for a line that is none of R76's. -/
def readLine (t : List Char) : Option (Option AsmLine) :=
  let u := trim (uncomment t)
  if u.isEmpty then some none
  else (readCommand (u.takeWhile fun c => !c.isWhitespace) (operands (u.dropWhile fun c => !c.isWhitespace))).map some

end Sys2Proof.Machine
end

