-- ==== Sys2Proof/Machine/Value.lean ====
section
/-! DEFINITION. The rational value of a binary64 word (30_encoding.md R80), in which what `RoundMag` and `Scale` compute
can be said (R81, R82, R139). Nothing of it is computed by a step. -/

namespace Sys2Proof.Machine

/-- The rational number a `Ratio` stands for. -/
def Ratio.value (q : Ratio) : ℚ := (q.num : ℚ) / (q.den : ℚ) * (2 : ℚ) ^ q.exp

/-- The biased exponent of a 63-bit field `{e, f}` (R81). -/
def magExp (m : BitVec 63) : BitVec 11 := m.extractLsb' 52 11

/-- The value of a finite 63-bit field `{e, f}`, as `Mag` gives it (R80). -/
def magValue (m : BitVec 63) : ℚ := (f64Mag ((0 : BitVec 1) ++ m)).value

end Sys2Proof.Machine
end

