-- ==== Sys2Proof/Safety.lean ====
section
/-! DEFINITION. What holds of every state a run reaches, and what counts as a safe run. -/

namespace Sys2Proof.Machine

/-- The invariant of the block: R33 (a) to (e), the buffers in canonical form with exactly the indices that hold a value
(R20), and the constraint on RX_CAP (R8). R33 (f) is a property of `State.status`. -/
structure Inv (s : State) : Prop where
  /-- TXBUF holds a value at 0 to 7 while TX_VALID = 1 and nowhere otherwise (R20, R50). -/
  txIndices : s.txBuf.map Prod.fst = if s.txValid then List.range Config.reqFrameLen else []
  /-- RXBUF holds a value exactly below RX_LEN (R20, R50). -/
  rxIndices : s.rxBuf.map Prod.fst = List.range s.rxLen
  /-- R33 (a). -/
  absentEmpty : s.rxPresent = false → s.rxLen = 0
  /-- R33 (b). -/
  lenBound : s.rxLen ≤ s.rxCap
  /-- R8. -/
  capBound : Config.rxCapMin ≤ s.rxCap
  /-- R33 (c). -/
  measOfFrame : ∀ m, s.meas = some m → s.rxPresent = true ∧ Config.minRespLen ≤ s.rxLen ∧
    memRead s.rxBuf 3 = some (highByte m.raw) ∧ memRead s.rxBuf 4 = some (lowByte m.raw)
  /-- R33 (d). -/
  vstatOfFrame : ∀ v, s.vstat = some v → ∃ ea, v = validateFrame s.rxFrame ea
  /-- R33 (e): TXBUF holds a frame that ENC.BUILD builds. -/
  txFrame : s.txValid = true → ∃ sa ra, s.txBuf.map Prod.snd = buildFrame sa ra

/-- What the phase of an exchange says of the calls its transport has seen (R177, R179, R181): no write before row 3 and
one from then on, no read before row 6 and at most one from then on. -/
def Phase.callsOk (p : Phase) (writes reads : Nat) : Prop :=
  match p with
  | .start => writes = 0 ∧ reads = 0
  | .build => writes = 0 ∧ reads = 0
  | .discard => writes = 1 ∧ reads = 0
  | .wait _ => writes = 1 ∧ reads = 0
  | .load => writes = 1 ∧ reads = 1
  | .validate => writes = 1 ∧ reads = 1
  | .decode => writes = 1 ∧ reads = 1
  | .done (.transportError _) => writes = 1 ∧ reads ≤ 1
  | .done _ => writes = 1 ∧ reads = 1

/-- The invariant of the host agent (R181): "precisely one write and at most one read per exchange invocation". -/
def CallsInv (s : State) : Prop :=
  ∀ e, s.host.exchange = some e → e.phase.callsOk e.writes.length e.reads

/-- The commands that wait are the last ones of the row of R187 being carried out, in order, so every command of an exchange
runs in the exchange state of its row; without an exchange none waits. -/
def RowInv (s : State) : Prop :=
  match s.host.exchange with
  | none => s.host.queue = []
  | some e => s.host.queue <:+ (e.phase.commands e.invocation).map encode

/-- The host's parameters are legal, in the exchange and in every invocation still to come (R231, D30). -/
def ParamsInv (s : State) : Prop :=
  (∀ inv ∈ s.host.invocations, inv.keepsRules s.rxCap = true) ∧
  (∀ e, s.host.exchange = some e → e.invocation.keepsRules s.rxCap = true)

/-- A step is safe when it answers a next state; by R200 and R232 only the premise of R220, a reset first, is needed. -/
def SafeStep (s : State) : Prop := ∃ t, step s = .next t

/-- The items the sequencer reads at the end of a phase hold values (R226): TXBUF[0..7] at row 3 and VSTAT at row 8. The
other reads are of STATUS, which always does, and at row 10 of the Measurement only while MEAS_VALID = 1. -/
def State.phaseReadsHeld (s : State) : Phase → Bool
  | .start => true
  | .build => (List.range Config.reqFrameLen).all fun i => s.holdsValue (BitVec.ofNat 4 (8 + i))
  | .discard => true
  | .wait _ => true
  | .load => true
  | .validate => s.holdsValue 5
  | .decode => true
  | .done _ => true

/-- On the sequencer's turn: a command is waiting, or what the host's own step reads holds values. -/
def State.turnReadsHeld (s : State) : Bool :=
  !s.host.queue.isEmpty || s.host.exchange.all fun e => s.phaseReadsHeld e.phase

/-- The launch premises a host of the block owes (R191, R220): a reset has been applied, and the next step reads no item
that holds no value (R226), be it a read event or the sequencer's own reading. -/
def HostKeepsRules (s : State) : Bool :=
  s.resetSeen && match s.port with
    | .read sel :: _ => s.holdsValue sel
    | .pins _ _ _ :: _ => true
    | .idle :: _ => s.turnReadsHeld
    | [] => s.turnReadsHeld

end Sys2Proof.Machine
end

