-- ==== Sys2Proof/Certificates/Slice0/Obligations.lean ====
section
/-! DEFINITION. The statements for the provers. Each docstring names the rule of spec/ it formalises. A statement that
names `draws`, `port`, `host`, `rxCap` or `resetSeen` says what the model's own fields do (assumptions 1, 2, 6, 8, 9). -/

open Sys2Proof Sys2Proof.Machine

/-! ### Reset, ports, steps -/

/-- R35: the state right after reset is the table of R35. -/
def Obligations.ResetStateIsTheTable : Prop :=
  State.reset.crcAcc = 0xFFFF ∧ State.reset.txValid = false ∧ (∀ i, State.reset.txByte i = none) ∧
  State.reset.rxPresent = false ∧ State.reset.rxLen = 0 ∧ (∀ i, memRead State.reset.rxBuf i = none) ∧
  State.reset.rxOvf = false ∧ State.reset.measValid = false ∧ State.reset.measRaw = none ∧
  State.reset.measScaled = none ∧ State.reset.vsValid = false ∧ State.reset.vstat = none ∧
  State.reset.illCmd = false ∧ State.reset.status = 0x00 ∧
  (∀ u, readPort State.reset 6 u = 0x03) ∧ (∀ u, readPort State.reset 7 u = 0x0001)

/-- R220, first sentence, with R35's values: an asserted `rst` puts every piece of the block's state into the value of the
table, from whatever state, whatever word is being issued. That RX_CAP, the other agent and the model's own fields stay
is the model's choice (assumption 15). -/
def Obligations.ResetInputDominatesTheCommand : Prop :=
  ∀ (s : State) (valid : Bool) (cw : CmdWord) (rest : List PortEvent), s.port = .pins true valid cw :: rest →
    step s = .next { State.reset with rxCap := s.rxCap, draws := s.draws, port := rest, host := s.host }

/-- R220 and 93_implementation_defined.md U8: before the first reset a command is refused, whatever it is and whether it
comes from the ports' list or from the exchange sequencer, and so is a read event (the model's choice of refusing is U8's;
assumption 8). -/
def Obligations.NoCommandBeforeTheFirstReset : Prop :=
  ∀ s : State, s.resetSeen = false →
    (∀ cw, s.nextWord = some cw → step s = .refused .beforeReset) ∧
    (∀ sel rest, s.port = .read sel :: rest → step s = .refused .beforeReset)

/-- R70: a word presented with `cmd_valid = 0` is no command and changes nothing (the event itself is used up:
assumption 1; that this is so before the first reset too is the model's choice, assumption 8). -/
def Obligations.InvalidWordChangesNothing : Prop :=
  ∀ (s : State) (cw : CmdWord) (rest : List PortEvent), s.port = .pins false false cw :: rest →
    step s = .next { s with port := rest }

/-- R70, R73: a word presented with `cmd_valid = 1` after a reset is executed as one step, and that step is the meaning of
the command it decodes to: a word of the ports' list, the word at the head of the sequencer's queue on its turn, and the
word that `withFetchWord` prepares. -/
def Obligations.StepRunsTheDecodedCommand : Prop :=
  ∀ (s : State) (i : Instr),
    (∀ (cw : CmdWord) (rest : List PortEvent), s.resetSeen = true → s.port = cmdEvent cw :: rest → decode cw = .ok i →
      step s = exec i { s with port := rest }) ∧
    (∀ (cw : CmdWord) (q : List CmdWord) (rest : List PortEvent), s.resetSeen = true →
      (s.port = .idle :: rest ∨ s.port = [] ∧ rest = []) → s.host.queue = cw :: q → decode cw = .ok i →
      step s = exec i { s with port := rest, host := { s.host with queue := q } }) ∧
    (∀ nbits w : Nat, decodeTableWord nbits w = some i →
      step (s.withFetchWord nbits w) = exec i { s with resetSeen := true })

/-- R74: a word with a reserved opcode, whatever its data field, sets ILL_CMD and changes no other state; and with the nine
other opcodes every data field is legal. -/
def Obligations.ReservedOpcodeSetsIllCmdOnly : Prop :=
  (∀ (s : State) (op : BitVec 4) (data : BitVec 64) (rest : List PortEvent),
    (op = 0x0 ∨ 0xA ≤ op) → s.resetSeen = true → s.port = cmdEvent (mkWord op data) :: rest →
    step s = .next { s with illCmd := true, port := rest }) ∧
  (∀ (op : BitVec 4) (data : BitVec 64), ¬ (op = 0x0 ∨ 0xA ≤ op) →
    ∃ i, decode (mkWord op data) = .ok i ∧ i.WellFormed = true)

/-- R200, R232: every command completes, from every state; the ports' future, the other agent and RX_CAP are none of its
business. -/
def Obligations.EveryCommandCompletes : Prop :=
  ∀ (i : Instr) (s : State), ∃ t, exec i s = .next t ∧
    t.rxCap = s.rxCap ∧ t.resetSeen = s.resetSeen ∧ t.port = s.port ∧ t.host = s.host ∧ t.illCmd = s.illCmd ∧
    (t.draws = s.draws ∨ t.draws = s.draws + 1)

/-- R200, R220, R232: after a reset every step answers a next state, and the reset stays applied. -/
def Obligations.EveryStepAfterResetCompletes : Prop :=
  ∀ s : State, s.resetSeen = true → ∃ t, step s = .next t ∧ t.resetSeen = true ∧ t.rxCap = s.rxCap

/-- 60_exceptions.md after R211 ("When no command is issued the block holds its state indefinitely"), R61, R175: on the
sequencer's turn, be it an `idle` event or the end of the ports' list, with no command waiting, every register and buffer of
the block stays as it is, whatever the host does; and when the host has nothing to do either, nothing at all changes (the
event itself is used up: assumption 1; that this is so before the first reset too is the model's choice, assumption 8). -/
def Obligations.HostStepLeavesTheBlock : Prop :=
  ∀ (s : State) (rest : List PortEvent), (s.port = .idle :: rest ∨ s.port = [] ∧ rest = []) → s.host.queue = [] →
    ∃ t, step s = .next t ∧ t.port = rest ∧
    t.crcAcc = s.crcAcc ∧ t.txValid = s.txValid ∧ t.txBuf = s.txBuf ∧ t.rxPresent = s.rxPresent ∧ t.rxLen = s.rxLen ∧
    t.rxBuf = s.rxBuf ∧ t.rxOvf = s.rxOvf ∧ t.meas = s.meas ∧ t.vstat = s.vstat ∧ t.illCmd = s.illCmd ∧
    (s.host.invocations = [] → (∀ e, s.host.exchange = some e → ∃ o, e.phase = .done o) → t = { s with port := rest })

/-! ### Encoding -/

/-- R73: a few words, written out from the opcode map and from 95_test_vectors.md, decode to what they stand for. -/
def Obligations.WordsOfTheOpcodeMapDecode : Prop :=
  decode 0x10000000000000000 = .ok .crcInit ∧
  decode 0x2ABCDEF0123456701 = .ok (.crcUpdate 0x01) ∧
  decode 0x30000000000F71234 = .ok (.encBuild 0xF7 0x1234) ∧
  decode 0x4FFFFFFFFFFFFFFFF = .ok .txDiscard ∧
  decode 0x50000000000000000 = .ok .rxClear ∧
  decode 0x60000000000000000 = .ok .rxOpen ∧
  decode 0x7000000000000002D = .ok (.rxPush 0x2D) ∧
  decode 0x83FB999999999999A = .ok (.decDecode 0x3FB999999999999A) ∧
  decode 0x90000000000000001 = .ok (.decValidate 0x01) ∧
  decode 0xA0000000000001234 = .error (.reservedOpcode 0xA)

/-- R71, R73: the whole map, for every data field: which opcode is which command, which bits of `data` are its operands,
that all other bits are ignored, and that the seven reserved opcodes are no command. -/
def Obligations.OpcodeMapIsComplete : Prop :=
  ∀ d : BitVec 64,
    decode (mkWord 0x1 d) = .ok .crcInit ∧
    decode (mkWord 0x2 d) = .ok (.crcUpdate (d.extractLsb' 0 8)) ∧
    decode (mkWord 0x3 d) = .ok (.encBuild (d.extractLsb' 16 8) (d.extractLsb' 0 16)) ∧
    decode (mkWord 0x4 d) = .ok .txDiscard ∧
    decode (mkWord 0x5 d) = .ok .rxClear ∧
    decode (mkWord 0x6 d) = .ok .rxOpen ∧
    decode (mkWord 0x7 d) = .ok (.rxPush (d.extractLsb' 0 8)) ∧
    decode (mkWord 0x8 d) = .ok (.decDecode d) ∧
    decode (mkWord 0x9 d) = .ok (.decValidate (d.extractLsb' 0 8)) ∧
    (∀ op : BitVec 4, (op = 0x0 ∨ 0xA ≤ op) → decode (mkWord op d) = .error (.reservedOpcode op))

/-- R70 to R73: the decoder reads back every command from its word, with every operand at every value; and the number in
the table's numbering does too, whole (68 bits) or in whole bytes (72). -/
def Obligations.DecodeInvertsEncode : Prop :=
  ∀ i : Instr, i.WellFormed = true →
    decode (encode i) = .ok i ∧
    decodeTableWord 68 (encode i).toNat = some i ∧ decodeTableWord 72 (encode i).toNat = some i

/-- R71, R76, 93_implementation_defined.md U10: a word whose unused data bits are 0 and whose opcode is not reserved is the
word the encoder writes for the command it decodes to. -/
def Obligations.EncodeInvertsDecode : Prop :=
  ∀ cw : CmdWord, CmdWord.Canonical cw = true → ∃ i, decode cw = .ok i ∧ encode i = cw

/-- R70, R72, R76, R125: the line `ENC.BUILD sa, ra` assembles to one word, `3 × 2^64` plus the low 8 bits of `sa` at bit 16
plus the low 16 bits of `ra`, whatever integers the host holds; integers that fit are kept whole. -/
def Obligations.EncBuildLineAssembles : Prop :=
  ∀ sa ra : Nat, ∃ cw, (AsmLine.encBuild sa ra).assemble = [cw] ∧
    cw.toNat = 3 * 2 ^ 64 + (sa % 2 ^ 8) * 2 ^ 16 + ra % 2 ^ 16 ∧
    ((AsmLine.encBuild sa ra).WellFormed = true → cw.toNat = 3 * 2 ^ 64 + sa * 2 ^ 16 + ra)

/-! ### The CRC engine -/

/-- R104: CRC.INIT sets CRC_ACC to 0xFFFF and writes nothing else; on every word of its encoding. -/
def Obligations.CrcInitSetsOnlyTheAccumulator : Prop :=
  ∀ s : State,
    exec .crcInit s = .next { s with crcAcc := 0xFFFF } ∧
    ∀ (data : BitVec 64) (rest : List PortEvent), s.resetSeen = true → s.port = cmdEvent (mkWord 0x1 data) :: rest →
      step s = .next { s with crcAcc := 0xFFFF, port := rest }

/-- R100, R101, R105: CRC.UPDATE writes CRC_ACC alone, and what it writes is the last of nine values: the first is the old
CRC_ACC with the byte XORed into its low 8 bits, and each of the eight that follow is the one before shifted right by
one, XORed with 0xA001 when the bit shifted out was 1. -/
def Obligations.CrcUpdateIsEightBitSteps : Prop :=
  ∀ (s : State) (b : Byte) (x : Nat → Half),
    x 0 = s.crcAcc ^^^ b.setWidth 16 →
    (∀ k, k < 8 → x (k + 1) = if (x k).getLsbD 0 then (x k >>> 1) ^^^ 0xA001 else x k >>> 1) →
    exec (.crcUpdate b) s = .next { s with crcAcc := x 8 }

/-- R108 and R23 (R108 is marked [derived: from rule R102] in the spec): the CRC of a concatenation continues from the
accumulator of its first part; CRC.INIT followed by one CRC.UPDATE per byte leaves ComputeCrc of the bytes in CRC_ACC,
everything else unchanged; and commands that do not write CRC_ACC may stand in between: it then depends only on the bytes
given to CRC.UPDATE, in order. -/
def Obligations.CrcStreamsByteByByte : Prop :=
  (∀ (a : Half) (u v : List Byte), crcFrom a (u ++ v) = crcFrom (crcFrom a u) v) ∧
  (∀ (bs : List Byte) (s : State), execAll (expandCrcCompute bs) s = .next { s with crcAcc := computeCrc bs }) ∧
  (∀ (is : List Instr) (s : State),
    (∀ i ∈ is, i ≠ .crcInit ∧ (∀ sa ra, i ≠ .encBuild sa ra) ∧ ∀ ea, i ≠ .decValidate ea) →
    ∃ t, execAll (.crcInit :: is) s = .next t ∧ t.crcAcc = computeCrc (updateBytes is))

/-- R110 (marked [derived: from rule R100 and rule R101] in the spec): the CRC of any byte sequence followed by its own CRC, low byte first, is 0. -/
def Obligations.CrcOfFrameWithItsCrcIsZero : Prop :=
  ∀ s : List Byte,
    computeCrc (s ++ [(computeCrc s).extractLsb' 0 8, (computeCrc s).extractLsb' 8 8]) = 0x0000

/-- R107: the numbers with which the rule shows that the CRC is order-sensitive and not compositional. -/
def Obligations.CrcIsNotCompositional : Prop :=
  computeCrc [0x01] = 0x807E ∧ computeCrc [0x03] = 0x41FF ∧ computeCrc [0x01, 0x03] = 0x2140 ∧
  computeCrc [0x03, 0x01] = 0x80C0 ∧ computeCrc [0x01] ^^^ computeCrc [0x03] = 0xC181 ∧
  computeCrc [0x01, 0x03] ≠ computeCrc [0x01] ^^^ computeCrc [0x03]

/-! ### The request encoder -/

/-- R120, R121, R122, R52, R54, R56: ENC.BUILD writes the eight bytes of the map to TXBUF, sets TX_VALID and leaves the
CRC of the first six in CRC_ACC; every other index of TXBUF reads as before and nothing else changes. -/
def Obligations.EncBuildWritesTheFrame : Prop :=
  ∀ (s : State) (sa : Byte) (ra : Half),
    let c := computeCrc [sa, 0x03, ra.extractLsb' 8 8, ra.extractLsb' 0 8, 0x00, 0x01]
    ∃ buf, exec (.encBuild sa ra) s = .next { s with txValid := true, txBuf := buf, crcAcc := c } ∧
      memRead buf 0 = some sa ∧ memRead buf 1 = some 0x03 ∧
      memRead buf 2 = some (ra.extractLsb' 8 8) ∧ memRead buf 3 = some (ra.extractLsb' 0 8) ∧
      memRead buf 4 = some 0x00 ∧ memRead buf 5 = some 0x01 ∧
      memRead buf 6 = some (c.extractLsb' 0 8) ∧ memRead buf 7 = some (c.extractLsb' 8 8) ∧
      ∀ a, 8 ≤ a → memRead buf a = memRead s.txBuf a

/-- R126: what ENC.BUILD puts into TXBUF depends on its operands alone, and for slave 1, register 0x0101 it is the frame
`01 03 01 01 00 01 D4 36`. -/
def Obligations.RequestFrameIsDeterministic : Prop :=
  (∀ (s s' t t' : State) (sa : Byte) (ra : Half), exec (.encBuild sa ra) s = .next t → exec (.encBuild sa ra) s' = .next t' →
    t.txBytes = t'.txBytes ∧ t.crcAcc = t'.crcAcc) ∧
  (∀ s : State, ∃ t, exec (.encBuild 0x01 0x0101) s = .next t ∧
    t.txBytes = [some 0x01, some 0x03, some 0x01, some 0x01, some 0x00, some 0x01, some 0xD4, some 0x36])

/-- R124, and R110 (marked [derived: ...] in the spec): a request frame has 8 bytes for all operands, and its CRC, CRC bytes included, is 0. -/
def Obligations.RequestFrameIsEightBytesOfResidueZero : Prop :=
  ∀ (sa : Byte) (ra : Half), (buildFrame sa ra).length = 8 ∧ computeCrc (buildFrame sa ra) = 0x0000

/-- R123: TX.DISCARD clears TX_VALID, after which TXBUF holds no value at any index; nothing else changes; on every word
of its encoding. -/
def Obligations.TxDiscardEmptiesTheBuffer : Prop :=
  ∀ s : State, ∃ buf, exec .txDiscard s = .next { s with txValid := false, txBuf := buf } ∧
    (∀ a, memRead buf a = none) ∧
    ∀ (data : BitVec 64) (rest : List PortEvent), s.resetSeen = true → s.port = cmdEvent (mkWord 0x4 data) :: rest →
      step s = .next { s with txValid := false, txBuf := buf, port := rest }

/-! ### The response parser -/

/-- R135, R136, R145: RX.CLEAR makes the frame absent and RX.OPEN makes it present and empty; both clear RX_OVF,
MEAS_VALID and VS_VALID, leave RXBUF without a value at any index, and write nothing else. -/
def Obligations.RxClearAndOpenEmptyTheFrame : Prop :=
  ∀ s : State,
    (∃ buf, exec .rxClear s = .next
        { s with rxPresent := false, rxLen := 0, rxBuf := buf, rxOvf := false, meas := none, vstat := none } ∧
      ∀ a, memRead buf a = none) ∧
    (∃ buf, exec .rxOpen s = .next
        { s with rxPresent := true, rxLen := 0, rxBuf := buf, rxOvf := false, meas := none, vstat := none } ∧
      ∀ a, memRead buf a = none)

/-- R137, R145: RX.PUSH writes its byte at the old RX_LEN and counts it while there is room, every other index of RXBUF
reading as before; in a full buffer it drops the byte and sets RX_OVF, RXBUF and RX_LEN unchanged; in both cases the
results are dropped and nothing else changes. -/
def Obligations.RxPushAppendsOrOverflows : Prop :=
  ∀ (s : State) (b : Byte),
    (s.rxLen < s.rxCap → ∃ buf, exec (.rxPush b) s = .next
        { s with rxPresent := true, rxLen := s.rxLen + 1, rxBuf := buf, meas := none, vstat := none } ∧
      memRead buf s.rxLen = some b ∧ ∀ a, a ≠ s.rxLen → memRead buf a = memRead s.rxBuf a) ∧
    (s.rxLen = s.rxCap → exec (.rxPush b) s = .next { s with rxOvf := true, meas := none, vstat := none })

/-- R77: the pseudo-commands do what they stand for: `CRC.COMPUTE` leaves ComputeCrc of its bytes in CRC_ACC; `RX.LOAD`
leaves the response frame present and equal to its bytes, if they are no more than RX_CAP; `RX.LOAD none` leaves it
absent. -/
def Obligations.PseudoCommandsLoadAndCompute : Prop :=
  (∀ (bs : List Byte) (s : State), ∃ t, execAll (expandCrcCompute bs) s = .next t ∧ t.crcAcc = computeCrc bs) ∧
  (∀ (bs : List Byte) (s : State), bs.length ≤ s.rxCap →
    ∃ t, execAll (expandRxLoad (some bs)) s = .next t ∧ t.rxPresent = true ∧ t.rxLen = bs.length ∧
      t.rxFrame = some bs ∧ t.rxOvf = false) ∧
  (∀ s : State, ∃ t, execAll (expandRxLoad none) s = .next t ∧ t.rxFrame = none)

/-- R145: an RX command drops both results; and whatever command changes the frame, or empties it, leaves neither a
Measurement nor a validation result. -/
def Obligations.NoResultOutlivesItsFrame : Prop :=
  (∀ (s : State) (b : Byte) (i : Instr), (i = .rxClear ∨ i = .rxOpen ∨ i = .rxPush b) →
    ∃ t, exec i s = .next t ∧ t.measValid = false ∧ t.vsValid = false) ∧
  (∀ (i : Instr) (s t : State), exec i s = .next t →
    (t.measValid = true ∨ t.vsValid = true) → t.rxPresent = s.rxPresent ∧ t.rxLen = s.rxLen ∧ t.rxBuf = s.rxBuf)

/-- R138: DecodeFrame gives the absent result exactly for an absent frame or one of less than 5 bytes, otherwise the
big-endian value at offsets 3 and 4 with its scaled product; two frames that agree in those two bytes and in being
long enough decode alike. -/
def Obligations.DecodeFrameLooksAtTwoBytes : Prop :=
  ∀ (sf nan : F64),
    decodeFrame none sf nan = none ∧
    (∀ f : List Byte, f.length < 5 → decodeFrame (some f) sf nan = none) ∧
    (∀ (b0 b1 b2 hi lo : Byte) (rest : List Byte), decodeFrame (some (b0 :: b1 :: b2 :: hi :: lo :: rest)) sf nan =
      some { raw := hi ++ lo, scaled := scale (hi ++ lo) sf nan }) ∧
    (∀ f g : List Byte, 5 ≤ f.length → 5 ≤ g.length → f[3]? = g[3]? → f[4]? = g[4]? →
      decodeFrame (some f) sf nan = decodeFrame (some g) sf nan)

/-- R140, R138: DEC.DECODE takes the absent result when the frame is absent or RX_LEN < 5; otherwise MEAS_RAW is
`{RXBUF[3], RXBUF[4]}` and MEAS_SCALED is Scale of it, for some NaN word where Scale leaves the word open (R139). It
writes nothing else of the block (`draws` is the model's own, assumption 6). -/
def Obligations.DecDecodeMeasuresOffsetsThreeAndFour : Prop :=
  ∀ (s : State) (sf : F64),
    (s.rxPresent = false ∨ s.rxLen < 5 →
      ∃ d, exec (.decDecode sf) s = .next { s with meas := none, draws := d }) ∧
    (∀ hi lo : Byte, s.rxPresent = true → 5 ≤ s.rxLen → memRead s.rxBuf 3 = some hi → memRead s.rxBuf 4 = some lo →
      ∃ nan d, f64IsNaN nan = true ∧ exec (.decDecode sf) s =
        .next { s with meas := some { raw := hi ++ lo, scaled := scale (hi ++ lo) sf nan }, draws := d })

/-- R144 (marked [derived: from rule R139 and rule R140] in the spec): DEC.DECODE issued twice with the same factor on an unchanged frame gives the same result, except that two NaN
results may differ; and it leaves CRC_ACC alone. For states with the block's invariant: outside it a byte read may be one
that holds no value. -/
def Obligations.DecodeIsRepeatable : Prop :=
  ∀ (s t u : State) (sf : F64), Inv s → exec (.decDecode sf) s = .next t → exec (.decDecode sf) t = .next u →
    t.crcAcc = s.crcAcc ∧ u.measValid = t.measValid ∧ u.measRaw = t.measRaw ∧
    (u.measScaled = t.measScaled ∨
      ∃ x y, t.measScaled = some x ∧ u.measScaled = some y ∧ f64IsNaN x = true ∧ f64IsNaN y = true)

/-! ### The scaling multiplier -/

/-- R139: the special cases and the sign. A NaN factor gives the NaN, an infinite one itself or, for raw 0, the NaN; a
finite one gives the sign of the factor, also for a zero product, and the rounded exact product for the rest. -/
def Obligations.ScaleBySignAndRoundedProduct : Prop :=
  ∀ (raw : Half) (sf nan : F64),
    (f64IsNaN sf = true → scale raw sf nan = nan) ∧
    (f64IsInf sf = true → scale raw sf nan = if raw = 0 then nan else sf) ∧
    (f64IsFinite sf = true →
      (scale raw sf nan).extractLsb' 63 1 = sf.extractLsb' 63 1 ∧
      ∃ q : Ratio, q.den ≠ 0 ∧ q.value = raw.toNat * (f64Mag sf).value ∧
        (scale raw sf nan).extractLsb' 0 63 = roundMag q)

/-- R81 (marked [from general knowledge, not in source] in the spec; assumption 16): RoundMag gives the field of a binary64 word nearest to `q`. It is infinity exactly from halfway above the largest
finite word on; a finite result is no further from `q` than any finite word is, and when another word is as near the
result is the even one of the two. -/
def Obligations.RoundMagIsNearestTiesToEven : Prop :=
  ∀ q : Ratio, q.den ≠ 0 →
    (magExp (roundMag q) = 2047 ↔ (2 ^ 54 - 1 : ℚ) * 2 ^ 970 ≤ q.value) ∧
    (magExp (roundMag q) = 2047 → roundMag q = magField 2047 0) ∧
    (magExp (roundMag q) ≠ 2047 → ∀ m : BitVec 63, magExp m ≠ 2047 →
      |magValue (roundMag q) - q.value| ≤ |magValue m - q.value| ∧
      (|magValue (roundMag q) - q.value| = |magValue m - q.value| → magValue m ≠ magValue (roundMag q) →
        (roundMag q).getLsbD 0 = false))

/-- R82 (marked [from general knowledge, not in source] in the spec; assumption 16): `U16ToF64(r)` is a finite word without sign whose value is exactly `r`. -/
def Obligations.U16ToF64IsExact : Prop :=
  ∀ r : Half, f64IsFinite (u16ToF64 r) = true ∧ f64Sign (u16ToF64 r) = 0 ∧ (f64Mag (u16ToF64 r)).value = r.toNat

/-- R139, R82, R140's corner case "`sf` = 1.0 gives the integer `raw` exactly". -/
def Obligations.ScaleByOneIsTheInteger : Prop :=
  ∀ (raw : Half) (nan : F64), scale raw 0x3FF0000000000000 nan = u16ToF64 raw

/-- R139, R80, R81: a raw value of 1 gives every factor that is not a NaN back, bit for bit: no finite word is rounded
away from its own value. -/
def Obligations.ScaleOfOneIsTheFactor : Prop :=
  ∀ sf nan : F64, f64IsNaN sf = false → scale 1 sf nan = sf

/-- R83 (marked [derived: from rule R80 and rule R81] in the spec), R76: the words of the constants, as decimal literals of
the assembler. R83 gives the words of -0.1 and of -0; that a decimal literal may carry the minus sign with which two of
these are written is the model's choice (assumption 20), for R76 shows literals without one. -/
def Obligations.DecimalLiteralsAreTheConstants : Prop :=
  (SfOperand.decimal false 1 1).word = 0x3FB999999999999A ∧ (SfOperand.decimal false 10 1).word = 0x3FF0000000000000 ∧
  (SfOperand.decimal false 5 1).word = 0x3FE0000000000000 ∧ (SfOperand.decimal false 1 2).word = 0x3F847AE147AE147B ∧
  (SfOperand.decimal true 1 1).word = 0xBFB999999999999A ∧ (SfOperand.decimal false 0 1).word = 0x0000000000000000 ∧
  (SfOperand.decimal true 0 1).word = 0x8000000000000000 ∧
  (f64Mag 0x3FB999999999999A).value = 3602879701896397 / 36028797018963968

/-! ### Strict validation -/

/-- R160: every bit of ValidateFrame, in the three cases. -/
def Obligations.ValidateFrameBits : Prop :=
  ∀ ea : Byte,
    validateFrame none ea = 0x81 ∧
    (∀ f : List Byte, f.length < 5 → validateFrame (some f) ea = 0x82) ∧
    (∀ (f : List Byte) (b0 b1 b2 lo hi : Byte), 5 ≤ f.length →
      f[0]? = some b0 → f[1]? = some b1 → f[2]? = some b2 →
      f[f.length - 2]? = some lo → f[f.length - 1]? = some hi →
      let v := validateFrame (some f) ea
      let crcMismatch := computeCrc (f.take (f.length - 2)) ≠ hi ++ lo
      v.getLsbD 0 = false ∧ v.getLsbD 1 = false ∧
      (v.getLsbD 2 = true ↔ f.length ≠ 7) ∧ (v.getLsbD 3 = true ↔ crcMismatch) ∧
      (v.getLsbD 4 = true ↔ b1 ≠ 0x03) ∧ (v.getLsbD 5 = true ↔ b2 ≠ 0x02) ∧ (v.getLsbD 6 = true ↔ b0 ≠ ea) ∧
      (v.getLsbD 7 = true ↔ crcMismatch ∨ b1 ≠ 0x03 ∨ b2 ≠ 0x02 ∨ b0 ≠ ea))

/-- R161: DEC.VALIDATE sets VS_VALID and VSTAT from the present frame and the operand, leaves the recomputed CRC in
CRC_ACC when the frame is present with 5 bytes or more, and writes nothing else of the block (`draws` is the model's own,
assumption 6). -/
def Obligations.DecValidateReportsTheFrame : Prop :=
  ∀ (s : State) (ea : Byte),
    (s.rxPresent = false → ∃ d, exec (.decValidate ea) s = .next { s with vstat := some 0x81, draws := d }) ∧
    (s.rxPresent = true → s.rxLen < 5 → ∃ d, exec (.decValidate ea) s = .next { s with vstat := some 0x82, draws := d }) ∧
    (∀ f : List Byte, s.rxPresent = true → 5 ≤ s.rxLen → f.length = s.rxLen →
      (∀ a, a < s.rxLen → memRead s.rxBuf a = f[a]?) →
      ∃ d, exec (.decValidate ea) s = .next
        { s with vstat := some (validateFrame (some f) ea), crcAcc := computeCrc (f.take (f.length - 2)), draws := d })

/-- R165, its last sentence (marked [derived: from rule R160 and rule R140] in the spec): after a DEC.VALIDATE that accepted the frame, a DEC.DECODE always yields a Measurement. -/
def Obligations.AcceptedFrameDecodes : Prop :=
  ∀ (s t : State) (ea : Byte) (sf : F64) (v : Byte), exec (.decValidate ea) s = .next t → t.vstat = some v →
    v.getLsbD 7 = false → ∃ u, exec (.decDecode sf) t = .next u ∧ u.measValid = true ∧ 5 ≤ u.rxLen ∧ u.rxPresent = true

/-- R110, R160 (43_frame_validation.md, R161's corner case): a frame of 7 bytes that carries its own CRC and the expected
header is accepted with VSTAT = 0x00, and with one more byte 0x00 after it only its length is flagged, VSTAT = 0x04. -/
def Obligations.WellFormedResponseIsAccepted : Prop :=
  ∀ (ea hi lo : Byte),
    let body := [ea, 0x03, 0x02, hi, lo]
    let c := computeCrc body
    validateFrame (some (body ++ [c.extractLsb' 0 8, c.extractLsb' 8 8])) ea = 0x00 ∧
    validateFrame (some (body ++ [c.extractLsb' 0 8, c.extractLsb' 8 8, 0x00])) ea = 0x04

/-! ### Status and the read port -/

/-- R29, R33 (f): each bit of STATUS is the flag named, bits 7:6 read as 0. -/
def Obligations.StatusCollectsTheFlags : Prop :=
  ∀ s : State, s.status.getLsbD 0 = s.txValid ∧ s.status.getLsbD 1 = s.rxPresent ∧ s.status.getLsbD 2 = s.rxOvf ∧
    s.status.getLsbD 3 = s.measValid ∧ s.status.getLsbD 4 = s.vsValid ∧ s.status.getLsbD 5 = s.illCmd ∧
    s.status.getLsbD 6 = false ∧ s.status.getLsbD 7 = false

/-- R32: the table of the read port, for items that hold a value (the value shown by one that does not is free: nothing is
said of it), and that a read has no side effect on any state of the block: it hands the host the item and changes nothing
else but the model's own `draws`. -/
def Obligations.ReadPortShowsTheItems : Prop :=
  (∀ (s : State) (u : BitVec 64),
    readPort s 0 u = s.status.setWidth 64 ∧ readPort s 1 u = s.crcAcc.setWidth 64 ∧
    (s.rxLen < 2 ^ 16 → readPort s 2 u = BitVec.ofNat 64 s.rxLen) ∧
    (∀ m, s.meas = some m → readPort s 3 u = m.raw.setWidth 64 ∧ readPort s 4 u = m.scaled) ∧
    (∀ v, s.vstat = some v → readPort s 5 u = v.setWidth 64) ∧
    readPort s 6 u = 0x0000000000000003 ∧ readPort s 7 u = 0x0000000000000001 ∧
    (∀ (i : Nat) (b : Byte), i < 8 → s.txValid = true → memRead s.txBuf i = some b →
      readPort s (BitVec.ofNat 4 (8 + i)) u = b.setWidth 64)) ∧
  (∀ (s : State) (sel : BitVec 4) (rest : List PortEvent), s.resetSeen = true → s.port = .read sel :: rest →
    ∃ u d, step s = .next { s with port := rest, draws := d, host := { s.host with lastRead := some (sel, readPort s sel u) } })

/-- R226, R20, R191: a host that keeps the rules, a reset first and no read of an item that holds no value, neither by a read
event nor by the sequencer at rows 3 and 8 of R187 (assumption 22), has safe steps, and what it comes to hold, the data of
its read events and the exchange with the bytes it writes and the outcome it reports, does not depend on the free values
that come next. -/
def Obligations.RuleKeepingHostSeesNoFreeValue : Prop :=
  (∀ s : State, HostKeepsRules s = true → SafeStep s) ∧
  (∀ (s : State) (sel : BitVec 4) (rest : List PortEvent), HostKeepsRules s = true → s.port = .read sel :: rest →
    ∃ t, step s = .next t ∧ ∀ u : BitVec 64, t.host.lastRead = some (sel, readPort s sel u)) ∧
  (∀ (s t u : State) (d : Nat), HostKeepsRules s = true → step s = .next t → step { s with draws := d } = .next u →
    u.host = t.host)

/-! ### Rules about the whole machine -/

/-- R33 (a) to (e) (marked [derived: ...] in the spec), R8, R20: the block's invariant is kept by every step, whatever is at the ports. -/
def Obligations.EveryStepKeepsTheBlockInvariant : Prop :=
  ∀ s t : State, Inv s → step s = .next t → Inv t

/-- R33 (marked [derived: ...] in the spec): the block's invariant holds right after reset; and an asserted `rst` establishes it from any state whose RX_CAP
meets R8's constraint. -/
def Obligations.ResetEstablishesTheBlockInvariant : Prop :=
  Inv State.reset ∧ ∀ s : State, 7 ≤ s.rxCap → Inv (resetBlock s)

/-- R28, R74, R206: ILL_CMD changes on a step only when `rst` is asserted, which clears it, or when a word with a reserved
opcode is issued, which sets it. -/
def Obligations.IllCmdIsStickyUntilReset : Prop :=
  ∀ s t : State, step s = .next t → t.illCmd ≠ s.illCmd →
    (∃ v cw rest, s.port = .pins true v cw :: rest ∧ t.illCmd = false) ∨
    (∃ cw op, s.nextWord = some cw ∧ decode cw = .error (.reservedOpcode op) ∧ t.illCmd = true)

/-- R206, R29: what clears TX_VALID, RX_PRESENT, RX_OVF, MEAS_VALID and VS_VALID on a step, and that nothing else does.
DEC.DECODE clears MEAS_VALID only where it yields the absent result. With ILL_CMD, of which another statement speaks, these
are all the flags of STATUS. -/
def Obligations.FlagsAreClearedInNoOtherWay : Prop :=
  ∀ s t : State, step s = .next t →
    let resets := ∃ v cw rest, s.port = .pins true v cw :: rest
    let issues := fun i : Instr => ∃ cw, s.nextWord = some cw ∧ decode cw = .ok i
    (s.txValid = true → t.txValid = false → resets ∨ issues .txDiscard) ∧
    (s.rxPresent = true → t.rxPresent = false → resets ∨ issues .rxClear) ∧
    (s.rxOvf = true → t.rxOvf = false → resets ∨ issues .rxClear ∨ issues .rxOpen) ∧
    (s.measValid = true → t.measValid = false →
      resets ∨ issues .rxClear ∨ issues .rxOpen ∨ (∃ b, issues (.rxPush b)) ∨
      ∃ sf, issues (.decDecode sf) ∧ (s.rxPresent = false ∨ s.rxLen < 5)) ∧
    (s.vsValid = true → t.vsValid = false →
      resets ∨ issues .rxClear ∨ issues .rxOpen ∨ ∃ b, issues (.rxPush b))

/-- R247 (marked [derived: ...] in the spec): the write sets. Whichever command it is, a register that has changed is one the command's row of the table
lists. -/
def Obligations.CommandsWriteOnlyTheirRow : Prop :=
  ∀ (i : Instr) (s t : State), exec i s = .next t →
    (t.crcAcc ≠ s.crcAcc → i = .crcInit ∨ (∃ b, i = .crcUpdate b) ∨ (∃ sa ra, i = .encBuild sa ra) ∨
      ∃ ea, i = .decValidate ea ∧ s.rxPresent = true ∧ 5 ≤ s.rxLen) ∧
    ((t.txValid ≠ s.txValid ∨ t.txBuf ≠ s.txBuf) → (∃ sa ra, i = .encBuild sa ra) ∨ i = .txDiscard) ∧
    ((t.rxPresent ≠ s.rxPresent ∨ t.rxLen ≠ s.rxLen ∨ t.rxBuf ≠ s.rxBuf ∨ t.rxOvf ≠ s.rxOvf) →
      i = .rxClear ∨ i = .rxOpen ∨ ∃ b, i = .rxPush b) ∧
    (t.meas ≠ s.meas → i = .rxClear ∨ i = .rxOpen ∨ (∃ b, i = .rxPush b) ∨ ∃ sf, i = .decDecode sf) ∧
    (t.vstat ≠ s.vstat → i = .rxClear ∨ i = .rxOpen ∨ (∃ b, i = .rxPush b) ∨ ∃ ea, i = .decValidate ea) ∧
    t.illCmd = s.illCmd

/-- R59: no command reads a byte of RXBUF that holds no value. In a state with the block's invariant the free bytes do not
show: two such states that differ only in which free values come next validate alike, and decode to the same raw value;
and no RX.PUSH writes at RX_CAP or beyond. -/
def Obligations.NoCommandReadsAnUnwrittenByte : Prop :=
  ∀ (s : State) (d : Nat), Inv s →
    (∀ (ea : Byte) (t u : State), exec (.decValidate ea) s = .next t → exec (.decValidate ea) { s with draws := d } = .next u →
      t.vstat = u.vstat ∧ t.crcAcc = u.crcAcc) ∧
    (∀ (sf : F64) (t u : State), exec (.decDecode sf) s = .next t → exec (.decDecode sf) { s with draws := d } = .next u →
      t.measRaw = u.measRaw) ∧
    (∀ (b : Byte) (t : State) (a : Nat), exec (.rxPush b) s = .next t → memRead t.rxBuf a ≠ memRead s.rxBuf a → a < s.rxCap)

/-! ### The exchange sequencer -/

/-- R181: "precisely one write and at most one read per exchange invocation", as an invariant of every step, whatever the
transport answers and whatever else is at the ports; with it a completed exchange has made exactly one write, and one
whose transport did not fail exactly one read (R179). -/
def Obligations.EveryStepKeepsOneWriteAtMostOneRead : Prop :=
  ∀ s t : State, CallsInv s → step s = .next t → CallsInv t ∧
    ∀ e, t.host.exchange = some e → e.writes.length ≤ 1 ∧ e.reads ≤ 1 ∧
      (∀ o, e.phase = .done o → e.writes.length = 1)

/-- R181: the invariant holds right after reset, and at the start of every exchange. -/
def Obligations.ResetHasNoCallsMade : Prop :=
  CallsInv State.reset ∧ ∀ (s : State) (inv : Invocation), CallsInv (s.setExchange (Exchange.begin inv))

/-- R187, R176 to R179: the commands of an exchange that wait are always the last ones of the row being carried out, in order,
whatever the transport answers and whatever else happens at the ports. That the sequencer is an agent of this model is
assumption 9. -/
def Obligations.EveryStepKeepsCommandsInTheirRow : Prop :=
  ∀ s t : State, RowInv s → step s = .next t → RowInv t

/-- R187, second and last column: on the sequencer's turn RX.CLEAR and ENC.BUILD run in Idle, TX.DISCARD in RequestSent, and
RX.OPEN, RX.PUSH, DEC.VALIDATE and DEC.DECODE in AwaitingResponse; the exchange stays in that state while the command runs,
and no other command is ever waiting. The turn is an `idle` event or the end of the ports' list; that and the agent are
assumption 9. -/
def Obligations.ExchangeCommandsRunInTheirState : Prop :=
  ∀ (s : State) (cw : CmdWord) (q : List CmdWord) (rest : List PortEvent), RowInv s → s.resetSeen = true →
    (s.port = .idle :: rest ∨ s.port = [] ∧ rest = []) → s.host.queue = cw :: q →
    ∃ (i : Instr) (t : State), decode cw = .ok i ∧ step s = .next t ∧ t.port = rest ∧
      t.host = { s.host with queue := q } ∧
      match i with
      | .rxClear => s.host.state = some .idle
      | .encBuild _ _ => s.host.state = some .idle
      | .txDiscard => s.host.state = some .requestSent
      | .rxOpen => s.host.state = some .awaitingResponse
      | .rxPush _ => s.host.state = some .awaitingResponse
      | .decValidate _ => s.host.state = some .awaitingResponse
      | .decDecode _ => s.host.state = some .awaitingResponse
      | .crcInit => False
      | .crcUpdate _ => False

/-- R191 ("May, at any time between commands: read any item of the read port; issue any of the nine commands with any operand
values; apply reset"), R175: in every state after a reset, in the middle of an exchange as well as outside one, a sample or
a read that comes first at the ports has its effect on the block and leaves the exchange, the invocations and the waiting
commands as they were; when nothing comes (`idle`), the sequencer goes on with its next command or step. The model's own
choices in this: how the agents take turns (assumption 9), and that a reset in the middle of an exchange leaves the exchange
and its waiting commands (assumption 15), of which the spec says nothing. -/
def Obligations.PortEventsFallBetweenExchangeSteps : Prop :=
  ∀ (s : State) (rest : List PortEvent), s.resetSeen = true →
    (∀ rst v cw, s.port = .pins rst v cw :: rest → ∃ t, step s = .next t ∧ t.port = rest ∧ t.host = s.host ∧
      (rst = false → v = true → ∀ i, decode cw = .ok i → exec i { s with port := rest } = .next t)) ∧
    (∀ sel, s.port = .read sel :: rest → ∃ t, step s = .next t ∧ t.port = rest ∧ t.host.exchange = s.host.exchange ∧
      t.host.queue = s.host.queue ∧ t.host.invocations = s.host.invocations) ∧
    (s.port = .idle :: rest → step s = sequencerTurn { s with port := rest })

/-- R231, R182, 92_eei_decisions.md D30: while the parameters of every invocation are legal they stay so, and a host with
legal parameters passes at most RX_CAP bytes per frame: the commands of rows 7a and 7b are none, or one RX.OPEN and at most
RX_CAP RX.PUSH, of the bytes its one read gave it. That the read gives no more than READ_MAX_BYTES of them is assumption 11,
and the agent assumption 9. -/
def Obligations.EveryStepKeepsHostParametersLegal : Prop :=
  ∀ s t : State, ParamsInv s → step s = .next t → ParamsInv t ∧
    ∀ e, t.host.exchange = some e →
      (∀ bs, (e.invocation.received bs).length ≤ t.rxCap) ∧
      (e.invocation.loadCommands = [] ∨ ∃ bs : List Byte, e.invocation.onRead = .bytes bs ∧
        e.invocation.loadCommands = .rxOpen :: (e.invocation.received bs).map .rxPush ∧
        (e.invocation.received bs).length ≤ t.rxCap)

/-- R176, R181, R187, R231: the three invariants of the host agent hold right after reset, where no exchange is in progress,
and in every state in which an exchange has just begun, the one about the parameters when those of the new invocation are
legal and the others' were. The agent is assumption 9. -/
def Obligations.ResetEstablishesTheHostInvariants : Prop :=
  CallsInv State.reset ∧ RowInv State.reset ∧ ParamsInv State.reset ∧ State.reset.host.state = some .idle ∧
  ∀ (s : State) (inv : Invocation),
    CallsInv (s.setExchange (Exchange.begin inv)) ∧ RowInv (s.setExchange (Exchange.begin inv)) ∧
    (ParamsInv s → inv.keepsRules s.rxCap = true → ParamsInv (s.setExchange (Exchange.begin inv))) ∧
    (s.setExchange (Exchange.begin inv)).host.state = some .idle

/-- R187, R190, R178 to R184, R231: from any state in which an exchange is about to begin and nothing else happens at the
ports, the machine comes to its end. The one frame written is the request frame. A transport failure ends it with its cause;
no sequence, less than 5 bytes, more bytes than RX_CAP, or a frame that the strict sequence rejects, with the absent result;
otherwise it ends with the Measurement of the bytes received, up to the choice of a NaN word. What is the model's own choice
in this: the sequencer as an agent (assumption 9), that the wait ends (10), that it takes no more than READ_MAX_BYTES (11),
that a transport failure ends the exchange at once with its cause (12), and that a rejected frame (13) and an overflowed one
(21) end it as absent. -/
def Obligations.ExchangeRunsToItsOutcome : Prop :=
  ∀ (s : State) (inv : Invocation), s.resetSeen = true → s.port = [] → s.host.queue = [] →
    s.host.exchange = some (Exchange.begin inv) →
    ∃ (k : Nat) (t : State) (e : Exchange) (o : ExchangeOutcome) (nan : F64),
      core.run k s = .next t ∧ t.port = [] ∧ t.host.queue = [] ∧ t.host.exchange = some e ∧ e.phase = .done o ∧
      f64IsNaN nan = true ∧
      e.invocation = inv ∧ e.writes = [buildFrame inv.request.slaveAddress inv.request.registerAddress] ∧ e.reads ≤ 1 ∧
      t.host.invocations = s.host.invocations ∧
      (∀ cause, inv.onWrite = .fail cause → o = .transportError cause ∧ e.reads = 0) ∧
      (inv.onWrite = .ok → e.reads = 1 ∧
        (∀ cause, inv.onRead = .fail cause → o = .transportError cause) ∧
        (inv.onRead = .nothing → o = .absent) ∧
        (∀ bs, inv.onRead = .bytes bs →
          let f := bs.take inv.readMaxBytes
          o = if s.rxCap < f.length then .absent
            else if inv.strict && rejects (validateFrame (some f) inv.request.slaveAddress) then .absent
            else match decodeFrame (some f) inv.scale nan with
              | none => .absent
              | some m => .measurement m))
end

