-- ==== Sys2Proof/Laws/Bits.lean ====
section
/-! SUPPORT. The parts of words put together from parts: bytes of 16-bit values, fields of a binary64 word, bits of a flag
word. -/

namespace Sys2Proof.Machine

theorem append_low {n w : Nat} (a : BitVec n) (b : BitVec w) : (a ++ b).extractLsb' 0 w = b := by
  apply BitVec.eq_of_getLsbD_eq
  intro i hi
  simp only [BitVec.getLsbD_extractLsb', BitVec.getLsbD_append]
  simp [hi]

theorem append_high {n w : Nat} (a : BitVec n) (b : BitVec w) : (a ++ b).extractLsb' w n = a := by
  apply BitVec.eq_of_getLsbD_eq
  intro i hi
  simp only [BitVec.getLsbD_extractLsb', BitVec.getLsbD_append]
  simp [hi]

@[simp] theorem highByte_joinBytes (a b : Byte) : highByte (joinBytes a b) = a := append_high a b

@[simp] theorem lowByte_joinBytes (a b : Byte) : lowByte (joinBytes a b) = b := append_low a b

@[simp] theorem joinBytes_high_low (v : Half) : joinBytes (highByte v) (lowByte v) = v := by
  apply BitVec.eq_of_getLsbD_eq
  intro i hi
  simp only [joinBytes, highByte, lowByte, BitVec.getLsbD_append, BitVec.getLsbD_extractLsb']
  by_cases h : i < 8
  · simp [h]
  · simp [h, show i - 8 < 8 by omega, show 8 + (i - 8) = i by omega]

@[simp] theorem f64Sign_f64Word (s : BitVec 1) (e : BitVec 11) (f : BitVec 52) : f64Sign (f64Word s e f) = s := by
  apply BitVec.eq_of_getLsbD_eq
  intro i hi
  simp only [f64Sign, f64Word, BitVec.getLsbD_extractLsb', BitVec.getLsbD_append]
  simp [hi, show ¬ (63 + i < 52) by omega, show ¬ (63 + i - 52 < 11) by omega, show 63 + i - 52 - 11 = i by omega]

@[simp] theorem f64Exp_f64Word (s : BitVec 1) (e : BitVec 11) (f : BitVec 52) : f64Exp (f64Word s e f) = e := by
  apply BitVec.eq_of_getLsbD_eq
  intro i hi
  simp only [f64Exp, f64Word, BitVec.getLsbD_extractLsb', BitVec.getLsbD_append]
  simp [hi, show ¬ (52 + i < 52) by omega]

@[simp] theorem f64Frac_f64Word (s : BitVec 1) (e : BitVec 11) (f : BitVec 52) : f64Frac (f64Word s e f) = f := by
  apply BitVec.eq_of_getLsbD_eq
  intro i hi
  simp only [f64Frac, f64Word, BitVec.getLsbD_extractLsb', BitVec.getLsbD_append]
  simp [hi]

/-- The free NaN is a NaN, whatever its free bits (R139). -/
theorem f64IsNaN_nanOf (x : BitVec 64) : f64IsNaN (nanOf x) = true := by
  simp only [f64IsNaN, nanOf, f64Exp_f64Word, f64Frac_f64Word]
  split <;> simp_all

/-- Every NaN word is the free NaN of some bits: of its own (U7). -/
theorem nanOf_self (w : F64) (h : f64IsNaN w = true) : nanOf w = w := by
  simp only [f64IsNaN, Bool.and_eq_true, beq_iff_eq, bne_iff_ne, ne_eq] at h
  rw [nanOf, if_neg h.2, ← h.1]
  apply BitVec.eq_of_getLsbD_eq
  intro i hi
  simp only [f64Word, f64Sign, f64Exp, f64Frac, BitVec.getLsbD_append, BitVec.getLsbD_extractLsb']
  by_cases h1 : i < 52
  · simp [h1]
  · by_cases h2 : i < 63
    · simp [h1, show i - 52 < 11 by omega, show 52 + (i - 52) = i by omega]
    · simp [h1, show ¬ (i - 52 < 11) by omega, show i - 52 - 11 < 1 by omega, show 63 + (i - 52 - 11) = i by omega]

/-- Scale leaves its result open only where the factor is a NaN, or an infinity times 0 (R139). -/
theorem scale_cases (raw : Half) (sf n n' : F64) :
    scale raw sf n' = scale raw sf n ∨ scale raw sf n = n ∧ scale raw sf n' = n' := by
  simp only [scale]
  split
  · exact .inr ⟨rfl, rfl⟩
  · split
    · split
      · exact .inr ⟨rfl, rfl⟩
      · exact .inl rfl
    · exact .inl rfl

/-- The bits of a word of eight flags. -/
theorem flagWord_bits (b7 b6 b5 b4 b3 b2 b1 b0 : Bool) :
    (flagWord b7 b6 b5 b4 b3 b2 b1 b0).getLsbD 0 = b0 ∧ (flagWord b7 b6 b5 b4 b3 b2 b1 b0).getLsbD 1 = b1 ∧
    (flagWord b7 b6 b5 b4 b3 b2 b1 b0).getLsbD 2 = b2 ∧ (flagWord b7 b6 b5 b4 b3 b2 b1 b0).getLsbD 3 = b3 ∧
    (flagWord b7 b6 b5 b4 b3 b2 b1 b0).getLsbD 4 = b4 ∧ (flagWord b7 b6 b5 b4 b3 b2 b1 b0).getLsbD 5 = b5 ∧
    (flagWord b7 b6 b5 b4 b3 b2 b1 b0).getLsbD 6 = b6 ∧ (flagWord b7 b6 b5 b4 b3 b2 b1 b0).getLsbD 7 = b7 := by
  cases b7 <;> cases b6 <;> cases b5 <;> cases b4 <;> cases b3 <;> cases b2 <;> cases b1 <;> cases b0 <;> decide

end Sys2Proof.Machine
end

