-- ==== Sys2Proof/Laws/Decode.lean ====
section
/-! SUPPORT. The fields of a command word put together from its opcode and its data field. -/

namespace Sys2Proof

@[simp] theorem opcode_mkWord (op : BitVec 4) (d : BitVec 64) : opcode (mkWord op d) = op := by
  apply BitVec.eq_of_getLsbD_eq
  intro i hi
  simp only [opcode, mkWord, BitVec.getLsbD_extractLsb', BitVec.getLsbD_append]
  simp [hi]

@[simp] theorem dataField_mkWord (op : BitVec 4) (d : BitVec 64) : dataField (mkWord op d) = d := by
  apply BitVec.eq_of_getLsbD_eq
  intro i hi
  simp only [dataField, mkWord, BitVec.getLsbD_extractLsb', BitVec.getLsbD_append]
  simp [hi]

@[simp] theorem fieldB_mkWord (op : BitVec 4) (d : BitVec 64) : fieldB (mkWord op d) = d.extractLsb' 0 8 := by
  apply BitVec.eq_of_getLsbD_eq
  intro i hi
  simp only [fieldB, mkWord, BitVec.getLsbD_extractLsb', BitVec.getLsbD_append]
  simp [hi, show i < 64 by omega]

@[simp] theorem fieldSa_mkWord (op : BitVec 4) (d : BitVec 64) : fieldSa (mkWord op d) = d.extractLsb' 16 8 := by
  apply BitVec.eq_of_getLsbD_eq
  intro i hi
  simp only [fieldSa, mkWord, BitVec.getLsbD_extractLsb', BitVec.getLsbD_append]
  simp [hi, show 16 + i < 64 by omega]

@[simp] theorem fieldRa_mkWord (op : BitVec 4) (d : BitVec 64) : fieldRa (mkWord op d) = d.extractLsb' 0 16 := by
  apply BitVec.eq_of_getLsbD_eq
  intro i hi
  simp only [fieldRa, mkWord, BitVec.getLsbD_extractLsb', BitVec.getLsbD_append]
  simp [hi, show i < 64 by omega]

@[simp] theorem fieldSf_mkWord (op : BitVec 4) (d : BitVec 64) : fieldSf (mkWord op d) = d := by
  apply BitVec.eq_of_getLsbD_eq
  intro i hi
  simp only [fieldSf, mkWord, BitVec.getLsbD_extractLsb', BitVec.getLsbD_append]
  simp [hi]

/-- Every word is its opcode and its data field. -/
theorem mkWord_opcode_dataField (cw : CmdWord) : mkWord (opcode cw) (dataField cw) = cw := by
  apply BitVec.eq_of_getLsbD_eq
  intro i hi
  simp only [mkWord, opcode, dataField, BitVec.getLsbD_append, BitVec.getLsbD_extractLsb']
  by_cases h : i < 64
  · simp [h]
  · simp [h, show i - 64 < 4 by omega, show 64 + (i - 64) = i by omega]

end Sys2Proof
end

