-- ==== Sys2Proof/Laws/State.lean ====
section
/-! SUPPORT. One lemma per field and update of State, so that no later proof unfolds a record update. -/

namespace Sys2Proof.Machine.State

variable (s : State)

@[simp] theorem setCrc_crcAcc (v : Half) : (s.setCrc v).crcAcc = v := rfl
@[simp] theorem setCrc_txValid (v : Half) : (s.setCrc v).txValid = s.txValid := rfl
@[simp] theorem setCrc_txBuf (v : Half) : (s.setCrc v).txBuf = s.txBuf := rfl
@[simp] theorem setCrc_rxPresent (v : Half) : (s.setCrc v).rxPresent = s.rxPresent := rfl
@[simp] theorem setCrc_rxLen (v : Half) : (s.setCrc v).rxLen = s.rxLen := rfl
@[simp] theorem setCrc_rxBuf (v : Half) : (s.setCrc v).rxBuf = s.rxBuf := rfl
@[simp] theorem setCrc_rxOvf (v : Half) : (s.setCrc v).rxOvf = s.rxOvf := rfl
@[simp] theorem setCrc_meas (v : Half) : (s.setCrc v).meas = s.meas := rfl
@[simp] theorem setCrc_vstat (v : Half) : (s.setCrc v).vstat = s.vstat := rfl
@[simp] theorem setCrc_illCmd (v : Half) : (s.setCrc v).illCmd = s.illCmd := rfl
@[simp] theorem setCrc_rxCap (v : Half) : (s.setCrc v).rxCap = s.rxCap := rfl
@[simp] theorem setCrc_resetSeen (v : Half) : (s.setCrc v).resetSeen = s.resetSeen := rfl
@[simp] theorem setCrc_draws (v : Half) : (s.setCrc v).draws = s.draws := rfl
@[simp] theorem setCrc_port (v : Half) : (s.setCrc v).port = s.port := rfl
@[simp] theorem setCrc_host (v : Half) : (s.setCrc v).host = s.host := rfl

@[simp] theorem setTx_crcAcc (b : Bool) (m : Memory) : (s.setTx b m).crcAcc = s.crcAcc := rfl
@[simp] theorem setTx_txValid (b : Bool) (m : Memory) : (s.setTx b m).txValid = b := rfl
@[simp] theorem setTx_txBuf (b : Bool) (m : Memory) : (s.setTx b m).txBuf = m := rfl
@[simp] theorem setTx_rxPresent (b : Bool) (m : Memory) : (s.setTx b m).rxPresent = s.rxPresent := rfl
@[simp] theorem setTx_rxLen (b : Bool) (m : Memory) : (s.setTx b m).rxLen = s.rxLen := rfl
@[simp] theorem setTx_rxBuf (b : Bool) (m : Memory) : (s.setTx b m).rxBuf = s.rxBuf := rfl
@[simp] theorem setTx_rxOvf (b : Bool) (m : Memory) : (s.setTx b m).rxOvf = s.rxOvf := rfl
@[simp] theorem setTx_meas (b : Bool) (m : Memory) : (s.setTx b m).meas = s.meas := rfl
@[simp] theorem setTx_vstat (b : Bool) (m : Memory) : (s.setTx b m).vstat = s.vstat := rfl
@[simp] theorem setTx_illCmd (b : Bool) (m : Memory) : (s.setTx b m).illCmd = s.illCmd := rfl
@[simp] theorem setTx_rxCap (b : Bool) (m : Memory) : (s.setTx b m).rxCap = s.rxCap := rfl
@[simp] theorem setTx_resetSeen (b : Bool) (m : Memory) : (s.setTx b m).resetSeen = s.resetSeen := rfl
@[simp] theorem setTx_draws (b : Bool) (m : Memory) : (s.setTx b m).draws = s.draws := rfl
@[simp] theorem setTx_port (b : Bool) (m : Memory) : (s.setTx b m).port = s.port := rfl
@[simp] theorem setTx_host (b : Bool) (m : Memory) : (s.setTx b m).host = s.host := rfl

@[simp] theorem setRx_crcAcc (b : Bool) (n : Nat) (m : Memory) : (s.setRx b n m).crcAcc = s.crcAcc := rfl
@[simp] theorem setRx_txValid (b : Bool) (n : Nat) (m : Memory) : (s.setRx b n m).txValid = s.txValid := rfl
@[simp] theorem setRx_txBuf (b : Bool) (n : Nat) (m : Memory) : (s.setRx b n m).txBuf = s.txBuf := rfl
@[simp] theorem setRx_rxPresent (b : Bool) (n : Nat) (m : Memory) : (s.setRx b n m).rxPresent = b := rfl
@[simp] theorem setRx_rxLen (b : Bool) (n : Nat) (m : Memory) : (s.setRx b n m).rxLen = n := rfl
@[simp] theorem setRx_rxBuf (b : Bool) (n : Nat) (m : Memory) : (s.setRx b n m).rxBuf = m := rfl
@[simp] theorem setRx_rxOvf (b : Bool) (n : Nat) (m : Memory) : (s.setRx b n m).rxOvf = s.rxOvf := rfl
@[simp] theorem setRx_meas (b : Bool) (n : Nat) (m : Memory) : (s.setRx b n m).meas = s.meas := rfl
@[simp] theorem setRx_vstat (b : Bool) (n : Nat) (m : Memory) : (s.setRx b n m).vstat = s.vstat := rfl
@[simp] theorem setRx_illCmd (b : Bool) (n : Nat) (m : Memory) : (s.setRx b n m).illCmd = s.illCmd := rfl
@[simp] theorem setRx_rxCap (b : Bool) (n : Nat) (m : Memory) : (s.setRx b n m).rxCap = s.rxCap := rfl
@[simp] theorem setRx_resetSeen (b : Bool) (n : Nat) (m : Memory) : (s.setRx b n m).resetSeen = s.resetSeen := rfl
@[simp] theorem setRx_draws (b : Bool) (n : Nat) (m : Memory) : (s.setRx b n m).draws = s.draws := rfl
@[simp] theorem setRx_port (b : Bool) (n : Nat) (m : Memory) : (s.setRx b n m).port = s.port := rfl
@[simp] theorem setRx_host (b : Bool) (n : Nat) (m : Memory) : (s.setRx b n m).host = s.host := rfl

@[simp] theorem setOvf_crcAcc (b : Bool) : (s.setOvf b).crcAcc = s.crcAcc := rfl
@[simp] theorem setOvf_txValid (b : Bool) : (s.setOvf b).txValid = s.txValid := rfl
@[simp] theorem setOvf_txBuf (b : Bool) : (s.setOvf b).txBuf = s.txBuf := rfl
@[simp] theorem setOvf_rxPresent (b : Bool) : (s.setOvf b).rxPresent = s.rxPresent := rfl
@[simp] theorem setOvf_rxLen (b : Bool) : (s.setOvf b).rxLen = s.rxLen := rfl
@[simp] theorem setOvf_rxBuf (b : Bool) : (s.setOvf b).rxBuf = s.rxBuf := rfl
@[simp] theorem setOvf_rxOvf (b : Bool) : (s.setOvf b).rxOvf = b := rfl
@[simp] theorem setOvf_meas (b : Bool) : (s.setOvf b).meas = s.meas := rfl
@[simp] theorem setOvf_vstat (b : Bool) : (s.setOvf b).vstat = s.vstat := rfl
@[simp] theorem setOvf_illCmd (b : Bool) : (s.setOvf b).illCmd = s.illCmd := rfl
@[simp] theorem setOvf_rxCap (b : Bool) : (s.setOvf b).rxCap = s.rxCap := rfl
@[simp] theorem setOvf_resetSeen (b : Bool) : (s.setOvf b).resetSeen = s.resetSeen := rfl
@[simp] theorem setOvf_draws (b : Bool) : (s.setOvf b).draws = s.draws := rfl
@[simp] theorem setOvf_port (b : Bool) : (s.setOvf b).port = s.port := rfl
@[simp] theorem setOvf_host (b : Bool) : (s.setOvf b).host = s.host := rfl

@[simp] theorem setMeas_crcAcc (m : Option Measurement) : (s.setMeas m).crcAcc = s.crcAcc := rfl
@[simp] theorem setMeas_txValid (m : Option Measurement) : (s.setMeas m).txValid = s.txValid := rfl
@[simp] theorem setMeas_txBuf (m : Option Measurement) : (s.setMeas m).txBuf = s.txBuf := rfl
@[simp] theorem setMeas_rxPresent (m : Option Measurement) : (s.setMeas m).rxPresent = s.rxPresent := rfl
@[simp] theorem setMeas_rxLen (m : Option Measurement) : (s.setMeas m).rxLen = s.rxLen := rfl
@[simp] theorem setMeas_rxBuf (m : Option Measurement) : (s.setMeas m).rxBuf = s.rxBuf := rfl
@[simp] theorem setMeas_rxOvf (m : Option Measurement) : (s.setMeas m).rxOvf = s.rxOvf := rfl
@[simp] theorem setMeas_meas (m : Option Measurement) : (s.setMeas m).meas = m := rfl
@[simp] theorem setMeas_vstat (m : Option Measurement) : (s.setMeas m).vstat = s.vstat := rfl
@[simp] theorem setMeas_illCmd (m : Option Measurement) : (s.setMeas m).illCmd = s.illCmd := rfl
@[simp] theorem setMeas_rxCap (m : Option Measurement) : (s.setMeas m).rxCap = s.rxCap := rfl
@[simp] theorem setMeas_resetSeen (m : Option Measurement) : (s.setMeas m).resetSeen = s.resetSeen := rfl
@[simp] theorem setMeas_draws (m : Option Measurement) : (s.setMeas m).draws = s.draws := rfl
@[simp] theorem setMeas_port (m : Option Measurement) : (s.setMeas m).port = s.port := rfl
@[simp] theorem setMeas_host (m : Option Measurement) : (s.setMeas m).host = s.host := rfl

@[simp] theorem setVstat_crcAcc (v : Option Byte) : (s.setVstat v).crcAcc = s.crcAcc := rfl
@[simp] theorem setVstat_txValid (v : Option Byte) : (s.setVstat v).txValid = s.txValid := rfl
@[simp] theorem setVstat_txBuf (v : Option Byte) : (s.setVstat v).txBuf = s.txBuf := rfl
@[simp] theorem setVstat_rxPresent (v : Option Byte) : (s.setVstat v).rxPresent = s.rxPresent := rfl
@[simp] theorem setVstat_rxLen (v : Option Byte) : (s.setVstat v).rxLen = s.rxLen := rfl
@[simp] theorem setVstat_rxBuf (v : Option Byte) : (s.setVstat v).rxBuf = s.rxBuf := rfl
@[simp] theorem setVstat_rxOvf (v : Option Byte) : (s.setVstat v).rxOvf = s.rxOvf := rfl
@[simp] theorem setVstat_meas (v : Option Byte) : (s.setVstat v).meas = s.meas := rfl
@[simp] theorem setVstat_vstat (v : Option Byte) : (s.setVstat v).vstat = v := rfl
@[simp] theorem setVstat_illCmd (v : Option Byte) : (s.setVstat v).illCmd = s.illCmd := rfl
@[simp] theorem setVstat_rxCap (v : Option Byte) : (s.setVstat v).rxCap = s.rxCap := rfl
@[simp] theorem setVstat_resetSeen (v : Option Byte) : (s.setVstat v).resetSeen = s.resetSeen := rfl
@[simp] theorem setVstat_draws (v : Option Byte) : (s.setVstat v).draws = s.draws := rfl
@[simp] theorem setVstat_port (v : Option Byte) : (s.setVstat v).port = s.port := rfl
@[simp] theorem setVstat_host (v : Option Byte) : (s.setVstat v).host = s.host := rfl

@[simp] theorem setIll_crcAcc (b : Bool) : (s.setIll b).crcAcc = s.crcAcc := rfl
@[simp] theorem setIll_txValid (b : Bool) : (s.setIll b).txValid = s.txValid := rfl
@[simp] theorem setIll_txBuf (b : Bool) : (s.setIll b).txBuf = s.txBuf := rfl
@[simp] theorem setIll_rxPresent (b : Bool) : (s.setIll b).rxPresent = s.rxPresent := rfl
@[simp] theorem setIll_rxLen (b : Bool) : (s.setIll b).rxLen = s.rxLen := rfl
@[simp] theorem setIll_rxBuf (b : Bool) : (s.setIll b).rxBuf = s.rxBuf := rfl
@[simp] theorem setIll_rxOvf (b : Bool) : (s.setIll b).rxOvf = s.rxOvf := rfl
@[simp] theorem setIll_meas (b : Bool) : (s.setIll b).meas = s.meas := rfl
@[simp] theorem setIll_vstat (b : Bool) : (s.setIll b).vstat = s.vstat := rfl
@[simp] theorem setIll_illCmd (b : Bool) : (s.setIll b).illCmd = b := rfl
@[simp] theorem setIll_rxCap (b : Bool) : (s.setIll b).rxCap = s.rxCap := rfl
@[simp] theorem setIll_resetSeen (b : Bool) : (s.setIll b).resetSeen = s.resetSeen := rfl
@[simp] theorem setIll_draws (b : Bool) : (s.setIll b).draws = s.draws := rfl
@[simp] theorem setIll_port (b : Bool) : (s.setIll b).port = s.port := rfl
@[simp] theorem setIll_host (b : Bool) : (s.setIll b).host = s.host := rfl

@[simp] theorem nextDraw_crcAcc : (s.nextDraw).crcAcc = s.crcAcc := rfl
@[simp] theorem nextDraw_txValid : (s.nextDraw).txValid = s.txValid := rfl
@[simp] theorem nextDraw_txBuf : (s.nextDraw).txBuf = s.txBuf := rfl
@[simp] theorem nextDraw_rxPresent : (s.nextDraw).rxPresent = s.rxPresent := rfl
@[simp] theorem nextDraw_rxLen : (s.nextDraw).rxLen = s.rxLen := rfl
@[simp] theorem nextDraw_rxBuf : (s.nextDraw).rxBuf = s.rxBuf := rfl
@[simp] theorem nextDraw_rxOvf : (s.nextDraw).rxOvf = s.rxOvf := rfl
@[simp] theorem nextDraw_meas : (s.nextDraw).meas = s.meas := rfl
@[simp] theorem nextDraw_vstat : (s.nextDraw).vstat = s.vstat := rfl
@[simp] theorem nextDraw_illCmd : (s.nextDraw).illCmd = s.illCmd := rfl
@[simp] theorem nextDraw_rxCap : (s.nextDraw).rxCap = s.rxCap := rfl
@[simp] theorem nextDraw_resetSeen : (s.nextDraw).resetSeen = s.resetSeen := rfl
@[simp] theorem nextDraw_draws : (s.nextDraw).draws = s.draws + 1 := rfl
@[simp] theorem nextDraw_port : (s.nextDraw).port = s.port := rfl
@[simp] theorem nextDraw_host : (s.nextDraw).host = s.host := rfl

@[simp] theorem setPort_crcAcc (p : List PortEvent) : (s.setPort p).crcAcc = s.crcAcc := rfl
@[simp] theorem setPort_txValid (p : List PortEvent) : (s.setPort p).txValid = s.txValid := rfl
@[simp] theorem setPort_txBuf (p : List PortEvent) : (s.setPort p).txBuf = s.txBuf := rfl
@[simp] theorem setPort_rxPresent (p : List PortEvent) : (s.setPort p).rxPresent = s.rxPresent := rfl
@[simp] theorem setPort_rxLen (p : List PortEvent) : (s.setPort p).rxLen = s.rxLen := rfl
@[simp] theorem setPort_rxBuf (p : List PortEvent) : (s.setPort p).rxBuf = s.rxBuf := rfl
@[simp] theorem setPort_rxOvf (p : List PortEvent) : (s.setPort p).rxOvf = s.rxOvf := rfl
@[simp] theorem setPort_meas (p : List PortEvent) : (s.setPort p).meas = s.meas := rfl
@[simp] theorem setPort_vstat (p : List PortEvent) : (s.setPort p).vstat = s.vstat := rfl
@[simp] theorem setPort_illCmd (p : List PortEvent) : (s.setPort p).illCmd = s.illCmd := rfl
@[simp] theorem setPort_rxCap (p : List PortEvent) : (s.setPort p).rxCap = s.rxCap := rfl
@[simp] theorem setPort_resetSeen (p : List PortEvent) : (s.setPort p).resetSeen = s.resetSeen := rfl
@[simp] theorem setPort_draws (p : List PortEvent) : (s.setPort p).draws = s.draws := rfl
@[simp] theorem setPort_port (p : List PortEvent) : (s.setPort p).port = p := rfl
@[simp] theorem setPort_host (p : List PortEvent) : (s.setPort p).host = s.host := rfl

@[simp] theorem setHost_crcAcc (h : HostAgent) : (s.setHost h).crcAcc = s.crcAcc := rfl
@[simp] theorem setHost_txValid (h : HostAgent) : (s.setHost h).txValid = s.txValid := rfl
@[simp] theorem setHost_txBuf (h : HostAgent) : (s.setHost h).txBuf = s.txBuf := rfl
@[simp] theorem setHost_rxPresent (h : HostAgent) : (s.setHost h).rxPresent = s.rxPresent := rfl
@[simp] theorem setHost_rxLen (h : HostAgent) : (s.setHost h).rxLen = s.rxLen := rfl
@[simp] theorem setHost_rxBuf (h : HostAgent) : (s.setHost h).rxBuf = s.rxBuf := rfl
@[simp] theorem setHost_rxOvf (h : HostAgent) : (s.setHost h).rxOvf = s.rxOvf := rfl
@[simp] theorem setHost_meas (h : HostAgent) : (s.setHost h).meas = s.meas := rfl
@[simp] theorem setHost_vstat (h : HostAgent) : (s.setHost h).vstat = s.vstat := rfl
@[simp] theorem setHost_illCmd (h : HostAgent) : (s.setHost h).illCmd = s.illCmd := rfl
@[simp] theorem setHost_rxCap (h : HostAgent) : (s.setHost h).rxCap = s.rxCap := rfl
@[simp] theorem setHost_resetSeen (h : HostAgent) : (s.setHost h).resetSeen = s.resetSeen := rfl
@[simp] theorem setHost_draws (h : HostAgent) : (s.setHost h).draws = s.draws := rfl
@[simp] theorem setHost_port (h : HostAgent) : (s.setHost h).port = s.port := rfl
@[simp] theorem setHost_host (h : HostAgent) : (s.setHost h).host = h := rfl

@[simp] theorem dropResults_crcAcc : (s.dropResults).crcAcc = s.crcAcc := rfl
@[simp] theorem dropResults_txValid : (s.dropResults).txValid = s.txValid := rfl
@[simp] theorem dropResults_txBuf : (s.dropResults).txBuf = s.txBuf := rfl
@[simp] theorem dropResults_rxPresent : (s.dropResults).rxPresent = s.rxPresent := rfl
@[simp] theorem dropResults_rxLen : (s.dropResults).rxLen = s.rxLen := rfl
@[simp] theorem dropResults_rxBuf : (s.dropResults).rxBuf = s.rxBuf := rfl
@[simp] theorem dropResults_rxOvf : (s.dropResults).rxOvf = s.rxOvf := rfl
@[simp] theorem dropResults_meas : (s.dropResults).meas = none := rfl
@[simp] theorem dropResults_vstat : (s.dropResults).vstat = none := rfl
@[simp] theorem dropResults_illCmd : (s.dropResults).illCmd = s.illCmd := rfl
@[simp] theorem dropResults_rxCap : (s.dropResults).rxCap = s.rxCap := rfl
@[simp] theorem dropResults_resetSeen : (s.dropResults).resetSeen = s.resetSeen := rfl
@[simp] theorem dropResults_draws : (s.dropResults).draws = s.draws := rfl
@[simp] theorem dropResults_port : (s.dropResults).port = s.port := rfl
@[simp] theorem dropResults_host : (s.dropResults).host = s.host := rfl

end Sys2Proof.Machine.State
end

