-- ==== Sys2Proof/Laws/Memory.lean ====
section
/-! SUPPORT. The laws of the buffers: read after write, every other index untouched, the canonical form kept, and what a
buffer is that holds a value exactly below some index. -/

namespace Sys2Proof.Machine

/-- The indices of a buffer that hold a value. -/
abbrev Memory.indices (m : Memory) : List Nat := m.map Prod.fst

@[simp] theorem memRead_memNone (i : Nat) : memRead memNone i = none := rfl

theorem memRead_memWrite (m : Memory) (i j : Nat) (v : Byte) :
    memRead (memWrite m i v) j = if j = i then some v else memRead m j := by
  induction m with
  | nil => simp only [memWrite, memRead, eq_comm (a := i)]
  | cons c m ih =>
    obtain ⟨x, y⟩ := c
    by_cases hx : i < x
    · simp only [memWrite, hx, if_true, memRead, eq_comm (a := i)]
    · by_cases he : i = x
      · subst he
        simp only [memWrite, hx, if_false, if_true, memRead, eq_comm (a := i)]
        by_cases h : j = i <;> simp [h]
      · simp only [memWrite, hx, he, if_false, memRead, ih]
        by_cases h : j = i
        · subst h; simp [Ne.symm he]
        · simp [h]

@[simp] theorem memRead_memWrite_same (m : Memory) (i : Nat) (v : Byte) : memRead (memWrite m i v) i = some v := by
  simp [memRead_memWrite]

theorem memRead_memWrite_other (m : Memory) {i j : Nat} (v : Byte) (h : j ≠ i) :
    memRead (memWrite m i v) j = memRead m j := by
  simp [memRead_memWrite, h]

theorem memRead_memWriteAll (m : Memory) (i j : Nat) (vs : List Byte) :
    memRead (memWriteAll m i vs) j = if i ≤ j ∧ j < i + vs.length then vs[j - i]? else memRead m j := by
  induction vs generalizing m i with
  | nil => simp [memWriteAll]
  | cons v vs ih =>
    rw [memWriteAll, ih, memRead_memWrite]
    by_cases h : j = i
    · subst h; simp
    · by_cases h2 : i + 1 ≤ j ∧ j < i + 1 + vs.length
      · have h3 : i ≤ j ∧ j < i + (v :: vs).length := by simp; omega
        have h4 : j - i = (j - (i + 1)) + 1 := by omega
        rw [if_pos h2, if_pos h3, h4, List.getElem?_cons_succ]
      · have h3 : ¬ (i ≤ j ∧ j < i + (v :: vs).length) := by simp; omega
        rw [if_neg h2, if_neg h, if_neg h3]

/-! ### The canonical form -/

theorem memNone_wf : Memory.wf memNone := List.Pairwise.nil

theorem memWrite_indices_mem (m : Memory) (i j : Nat) (v : Byte) :
    j ∈ Memory.indices (memWrite m i v) ↔ j = i ∨ j ∈ Memory.indices m := by
  induction m with
  | nil => simp [memWrite, Memory.indices]
  | cons c m ih =>
    obtain ⟨x, y⟩ := c
    simp only [Memory.indices] at ih
    by_cases hx : i < x
    · simp [memWrite, hx, Memory.indices]
    · by_cases he : i = x
      · subst he; simp [memWrite, Memory.indices]
      · simp only [memWrite, hx, he, if_false, Memory.indices, List.map_cons, List.mem_cons, ih]
        tauto

theorem memWrite_wf {m : Memory} (h : Memory.wf m) (i : Nat) (v : Byte) : Memory.wf (memWrite m i v) := by
  induction m with
  | nil => simp [memWrite, Memory.wf]
  | cons c m ih =>
    obtain ⟨x, y⟩ := c
    simp only [Memory.wf, List.map_cons, List.pairwise_cons] at h ih
    by_cases hx : i < x
    · simp only [memWrite, hx, if_true, Memory.wf, List.map_cons, List.pairwise_cons]
      refine ⟨?_, h⟩
      intro a ha
      rcases List.mem_cons.mp ha with rfl | ha
      · exact hx
      · exact lt_trans hx (h.1 a ha)
    · by_cases he : i = x
      · subst he
        simpa only [memWrite, hx, if_false, if_true, Memory.wf, List.map_cons, List.pairwise_cons] using h
      · simp only [memWrite, hx, he, if_false, Memory.wf, List.map_cons, List.pairwise_cons]
        refine ⟨?_, ih h.2⟩
        intro a ha
        rcases (memWrite_indices_mem m i a v).mp ha with rfl | ha
        · omega
        · exact h.1 a ha

theorem memWriteAll_wf {m : Memory} (h : Memory.wf m) (i : Nat) (vs : List Byte) : Memory.wf (memWriteAll m i vs) := by
  induction vs generalizing m i with
  | nil => exact h
  | cons v vs ih => exact ih (memWrite_wf h i v) (i + 1)

/-! ### Buffers that hold a value exactly below an index -/

/-- A buffer with the indices 0 to n-1 is in canonical form. -/
theorem wf_of_indices_range {m : Memory} {n : Nat} (h : Memory.indices m = List.range n) : Memory.wf m := by
  unfold Memory.wf
  rw [show m.map Prod.fst = List.range n from h]
  exact List.pairwise_lt_range

theorem memWrite_append {m : Memory} {i : Nat} (h : ∀ a ∈ Memory.indices m, a < i) (v : Byte) :
    memWrite m i v = m ++ [(i, v)] := by
  induction m with
  | nil => rfl
  | cons c m ih =>
    obtain ⟨x, y⟩ := c
    have hx : x < i := h x (by simp)
    have : ∀ a ∈ Memory.indices m, a < i := fun a ha => h a (List.mem_cons_of_mem _ ha)
    simp [memWrite, ih this, Nat.not_lt.mpr hx.le, hx.ne']

theorem memRead_append (m m' : Memory) (i : Nat) :
    memRead (m ++ m') i = (memRead m i).or (memRead m' i) := by
  induction m with
  | nil => simp [memRead]
  | cons c m ih =>
    obtain ⟨x, y⟩ := c
    by_cases h : x = i <;> simp [memRead, h, ih]

/-- Reading a buffer with the indices k to k+n-1: the bytes it lists, in order. -/
theorem memRead_of_indices_range' {m : Memory} {k n : Nat} (h : Memory.indices m = List.range' k n) (i : Nat) :
    memRead m (k + i) = (m.map Prod.snd)[i]? := by
  induction m generalizing k n i with
  | nil => simp [memRead]
  | cons c m ih =>
    obtain ⟨x, y⟩ := c
    cases n with
    | zero => simp [Memory.indices] at h
    | succ n =>
      rw [Memory.indices, List.map_cons, List.range'_succ, List.cons.injEq] at h
      obtain ⟨hx, hm⟩ := h
      simp only at hx
      subst hx
      cases i with
      | zero => simp [memRead]
      | succ i =>
        have := ih hm i
        rw [show x + (i + 1) = x + 1 + i by omega]
        simp only [memRead]
        rw [if_neg (by omega), this]
        simp

theorem memRead_of_indices_range {m : Memory} {n : Nat} (h : Memory.indices m = List.range n) (i : Nat) :
    memRead m i = (m.map Prod.snd)[i]? := by
  have := memRead_of_indices_range' (k := 0) (n := n) (m := m) (by rw [h, List.range_eq_range']) i
  simpa using this

theorem length_of_indices_range {m : Memory} {n : Nat} (h : Memory.indices m = List.range n) : m.length = n := by
  have := congrArg List.length h
  simpa using this

end Sys2Proof.Machine
end

