-- ==== Sys2Proof/Laws/Frame.lean ====
section
/-! SUPPORT. The response frame as the commands read it (R25), and what loading and decoding do to it. -/

namespace Sys2Proof.Machine

@[simp] theorem rxBytes_length (s : State) : s.rxBytes.length = s.rxLen := by simp [State.rxBytes]

theorem byteAt_rxBytes (s : State) (i : Nat) (h : i < s.rxLen) : byteAt s.rxBytes i = s.rxByte i := by
  simp [byteAt, State.rxBytes, List.getD_eq_getElem?_getD, List.getElem?_map, List.getElem?_range h]

/-- Where RXBUF holds a value exactly below RX_LEN, the frame's bytes are the bytes listed: no free byte shows. -/
theorem rxBytes_of_indices {s : State} (h : Memory.indices s.rxBuf = List.range s.rxLen) :
    s.rxBytes = s.rxBuf.map Prod.snd := by
  apply List.ext_getElem?
  intro i
  have hlen := length_of_indices_range h
  simp only [State.rxBytes, List.getElem?_map]
  by_cases hi : i < s.rxLen
  · rw [List.getElem?_range hi]
    simp only [Option.map_some]
    rw [State.rxByte, memRead_of_indices_range h i]
    simp [hlen, hi]
  · rw [List.getElem?_eq_none (by simp; omega), List.getElem?_eq_none (by omega)]
    rfl

theorem rxFrame_of_indices {s : State} (h : Memory.indices s.rxBuf = List.range s.rxLen) :
    s.rxFrame = if s.rxPresent then some (s.rxBuf.map Prod.snd) else none := by
  simp only [State.rxFrame, rxBytes_of_indices h]

/-- A push writes one past the bytes listed. -/
theorem memWrite_at_len {s : State} (h : Memory.indices s.rxBuf = List.range s.rxLen) (b : Byte) :
    memWrite s.rxBuf s.rxLen b = s.rxBuf ++ [(s.rxLen, b)] := by
  apply memWrite_append
  intro a ha
  rw [h] at ha
  simpa using ha

/-- DecodeFrame gives the absent result exactly for no frame and for less than 5 bytes (R138). -/
theorem decodeFrame_eq_none (rx : Option (List Byte)) (sf nan : F64) :
    decodeFrame rx sf nan = none ↔ ∀ f, rx = some f → f.length < Config.minRespLen := by
  cases rx with
  | none => simp [decodeFrame]
  | some f => by_cases h : f.length < Config.minRespLen <;> simp [decodeFrame, h]

theorem decodeFrame_of_long {f : List Byte} (h : Config.minRespLen ≤ f.length) (sf nan : F64) :
    decodeFrame (some f) sf nan =
      some { raw := joinBytes (byteAt f 3) (byteAt f 4), scaled := scale (joinBytes (byteAt f 3) (byteAt f 4)) sf nan } := by
  simp only [decodeFrame]
  rw [if_neg (by omega)]

end Sys2Proof.Machine
end

