-- ==== Sys2Proof/Laws/PerInstr.lean ====
section
/-! SUPPORT. Statements for all commands, made per constructor: the word of every command has, under the mask of the opcode
map, the match value of its row (R73). -/

namespace Sys2Proof.Laws.EncodedOpcode

/-- "mask" and "match" of R73: the masked word of a command is its row's match value. -/
def Statement (i : Instr) : Prop := encode i &&& opcodeMask = matchWord i

theorem masked (op : BitVec 4) (d : BitVec 64) : mkWord op d &&& opcodeMask = mkWord op 0 := by
  have hm : opcodeMask = mkWord 0xF 0 := by decide
  rw [hm]
  apply BitVec.eq_of_getLsbD_eq
  intro i hi
  simp only [mkWord, BitVec.getLsbD_and, BitVec.getLsbD_append]
  by_cases h : i < 64
  · simp [h]
  · have : ∀ j, j < 4 → (0xF : BitVec 4).getLsbD j = true := by decide
    simp only [h, if_false]
    rw [this (i - 64) (by omega), Bool.and_true]

theorem crcInit : Statement .crcInit :=
  (masked 0x1 _).trans (show mkWord 0x1 0 = 0x10000000000000000 by decide)

theorem crcUpdate (b : Byte) : Statement (.crcUpdate b) :=
  (masked 0x2 _).trans (show mkWord 0x2 0 = 0x20000000000000000 by decide)

theorem encBuild (sa : Byte) (ra : Half) : Statement (.encBuild sa ra) :=
  (masked 0x3 _).trans (show mkWord 0x3 0 = 0x30000000000000000 by decide)

theorem txDiscard : Statement .txDiscard :=
  (masked 0x4 _).trans (show mkWord 0x4 0 = 0x40000000000000000 by decide)

theorem rxClear : Statement .rxClear :=
  (masked 0x5 _).trans (show mkWord 0x5 0 = 0x50000000000000000 by decide)

theorem rxOpen : Statement .rxOpen :=
  (masked 0x6 _).trans (show mkWord 0x6 0 = 0x60000000000000000 by decide)

theorem rxPush (b : Byte) : Statement (.rxPush b) :=
  (masked 0x7 _).trans (show mkWord 0x7 0 = 0x70000000000000000 by decide)

theorem decDecode (sf : F64) : Statement (.decDecode sf) :=
  (masked 0x8 _).trans (show mkWord 0x8 0 = 0x80000000000000000 by decide)

theorem decValidate (ea : Byte) : Statement (.decValidate ea) :=
  (masked 0x9 _).trans (show mkWord 0x9 0 = 0x90000000000000000 by decide)

end Sys2Proof.Laws.EncodedOpcode
end

