-- ==== Sys2Proof/Laws/Step.lean ====
section
/-! SUPPORT. What one step can do, said once: by the event at the ports, and by the inversion lemma `step_cases`. -/

namespace Sys2Proof.Machine

/-- The agents' own part of the state: `u` is `s` but for `port`, `host` and `draws`. -/
def State.SameBlock (s u : State) : Prop := u = { s with port := u.port, host := u.host, draws := u.draws }

theorem taken_sameBlock (s : State) : s.SameBlock s.taken := by
  unfold State.SameBlock State.taken
  split <;> rfl

@[simp] theorem taken_resetSeen (s : State) : s.taken.resetSeen = s.resetSeen := by rw [taken_sameBlock s]

/-- The host agent of the taken state differs in its queue at most. -/
theorem taken_host (s : State) : s.taken.host = { s.host with queue := s.taken.host.queue } := by
  unfold State.taken
  split <;> rfl

@[simp] theorem taken_host_exchange (s : State) : s.taken.host.exchange = s.host.exchange := by rw [taken_host s]

@[simp] theorem taken_host_invocations (s : State) : s.taken.host.invocations = s.host.invocations := by rw [taken_host s]

/-- Whether from the ports' list or from the sequencer's queue: the word presented is issued. -/
theorem step_word {s : State} {cw : CmdWord} (hr : s.resetSeen = true) (h : s.nextWord = some cw) :
    step s = issue cw s.taken := by
  unfold State.nextWord at h
  unfold step State.taken
  split at h
  · rename_i hp
    cases h
    simp [hp, portStep, pinsStep, hr]
  · cases h
  · cases h
  · cases h
  · rename_i hp
    obtain ⟨q, hq⟩ : ∃ q, s.host.queue = cw :: q := ⟨_, List.eq_cons_of_mem_head? h⟩
    simp [hp, portStep, sequencerTurn, hq, pinsStep, hr, State.dequeue]
  · rename_i hp
    obtain ⟨q, hq⟩ : ∃ q, s.host.queue = cw :: q := ⟨_, List.eq_cons_of_mem_head? h⟩
    simp [hp, portStep, sequencerTurn, hq, pinsStep, hr, State.dequeue]

theorem step_instr {s : State} {cw : CmdWord} {i : Instr} (hr : s.resetSeen = true) (h : s.nextWord = some cw)
    (hd : decode cw = .ok i) : step s = exec i s.taken := by
  rw [step_word hr h]
  simp [issue, hd]

/-- A step that is the sequencer's turn, by an `idle` event or at the end of the ports' list. -/
theorem step_turn {s : State} {rest : List PortEvent} (h : s.port = .idle :: rest ∨ s.port = [] ∧ rest = []) :
    step s = sequencerTurn (s.setPort rest) := by
  rcases h with h | ⟨h, rfl⟩
  · simp [step, h, portStep]
  · rw [show s.setPort [] = s by rw [← h]; rfl]
    simp [step, h, portStep]

/-- The sequencer's turn with no command waiting. -/
theorem step_host {s : State} {rest : List PortEvent} (h : s.port = .idle :: rest ∨ s.port = [] ∧ rest = [])
    (hq : s.host.queue = []) : step s = .next (hostStep (s.setPort rest)) := by
  simp [step_turn h, sequencerTurn, hq]

theorem sequencerTurn_cases {s t : State} (h : sequencerTurn s = .next t) :
    (∃ cw q, s.host.queue = cw :: q ∧ s.resetSeen = true ∧ issue cw s.dequeue = .next t) ∨
    (s.host.queue = [] ∧ t = hostStep s) := by
  unfold sequencerTurn at h
  split at h
  · rename_i cw q hq
    simp only [pinsStep, Bool.false_eq_true, if_false, if_true] at h
    split at h
    · rename_i hr
      refine .inl ⟨cw, q, hq, hr, ?_⟩
      rw [State.dequeue, hq]
      exact h
    · cases h
  · simp only [Host.Outcome.next.injEq] at h
    exact .inr ⟨‹_›, h.symm⟩

theorem issue_cases {s t : State} {cw : CmdWord} (h : issue cw s = .next t) :
    (∃ i, decode cw = .ok i ∧ exec i s = .next t) ∨
    (∃ op, decode cw = .error (.reservedOpcode op) ∧ t = reservedOpcode s) := by
  unfold issue at h
  split at h
  · exact .inl ⟨_, ‹_›, h⟩
  · simp only [Host.Outcome.next.injEq] at h
    exact .inr ⟨_, ‹_›, h.symm⟩

/-- Everything a step that answers a next state can have been: a reset, a word that is no command, a command, a reserved
opcode, a read of the read port, or a step of the host's own. -/
theorem step_cases {s t : State} (h : step s = .next t) :
    (∃ v cw rest, s.port = .pins true v cw :: rest ∧ t = resetBlock (s.setPort rest)) ∨
    (∃ cw rest, s.port = .pins false false cw :: rest ∧ t = s.setPort rest) ∨
    (∃ cw i, s.nextWord = some cw ∧ s.resetSeen = true ∧ decode cw = .ok i ∧ exec i s.taken = .next t) ∨
    (∃ cw op, s.nextWord = some cw ∧ s.resetSeen = true ∧ decode cw = .error (.reservedOpcode op) ∧
      t = reservedOpcode s.taken) ∨
    (∃ sel rest, s.port = .read sel :: rest ∧ s.resetSeen = true ∧ t = portReadEvent sel (s.setPort rest)) ∨
    (∃ rest, (s.port = .idle :: rest ∨ s.port = [] ∧ rest = []) ∧ s.host.queue = [] ∧ t = hostStep (s.setPort rest)) := by
  have word : ∀ {cw : CmdWord}, s.nextWord = some cw → s.resetSeen = true → issue cw s.taken = .next t →
      (∃ cw i, s.nextWord = some cw ∧ s.resetSeen = true ∧ decode cw = .ok i ∧ exec i s.taken = .next t) ∨
      (∃ cw op, s.nextWord = some cw ∧ s.resetSeen = true ∧ decode cw = .error (.reservedOpcode op) ∧
        t = reservedOpcode s.taken) := by
    intro cw hw hr hi
    rcases issue_cases hi with ⟨i, hd, he⟩ | ⟨op, hd, he⟩
    · exact .inl ⟨cw, i, hw, hr, hd, he⟩
    · exact .inr ⟨cw, op, hw, hr, hd, he⟩
  unfold step at h
  split at h
  · rename_i ev rest hp
    cases ev with
    | read sel =>
      simp only [portStep, readStep] at h
      split at h
      · rename_i hr
        simp only [Host.Outcome.next.injEq] at h
        exact .inr (.inr (.inr (.inr (.inl ⟨sel, rest, hp, hr, h.symm⟩))))
      · cases h
    | pins rst v cw =>
      cases rst with
      | true =>
        simp only [portStep, pinsStep, if_true, Host.Outcome.next.injEq] at h
        exact .inl ⟨v, cw, rest, hp, h.symm⟩
      | false =>
        cases v with
        | false =>
          simp only [portStep, pinsStep, Bool.false_eq_true, if_false, Host.Outcome.next.injEq] at h
          exact .inr (.inl ⟨cw, rest, hp, h.symm⟩)
        | true =>
          simp only [portStep, pinsStep, Bool.false_eq_true, if_false, if_true] at h
          split at h
          · rename_i hr
            have ht : s.taken = s.setPort rest := by simp only [State.taken, hp]
            rcases word (cw := cw) (by simp only [State.nextWord, hp]) hr (ht ▸ h) with h | h
            · exact .inr (.inr (.inl h))
            · exact .inr (.inr (.inr (.inl h)))
          · cases h
    | idle =>
      rcases sequencerTurn_cases h with ⟨cw, q, hq, hr, hi⟩ | ⟨hq, ht⟩
      · have hq' : s.host.queue = cw :: q := hq
        have htk : s.taken = (s.setPort rest).dequeue := by simp only [State.taken, hp]
        rcases word (cw := cw) (by simp only [State.nextWord, hp, hq', List.head?_cons]) hr (htk ▸ hi) with h | h
        · exact .inr (.inr (.inl h))
        · exact .inr (.inr (.inr (.inl h)))
      · exact .inr (.inr (.inr (.inr (.inr ⟨rest, .inl hp, hq, ht⟩))))
  · rename_i hp
    rcases sequencerTurn_cases h with ⟨cw, q, hq, hr, hi⟩ | ⟨hq, ht⟩
    · have htk : s.taken = s.dequeue := by simp only [State.taken, hp]
      rcases word (cw := cw) (by simp only [State.nextWord, hp, hq, List.head?_cons]) hr (htk ▸ hi) with h | h
      · exact .inr (.inr (.inl h))
      · exact .inr (.inr (.inr (.inl h)))
    · refine .inr (.inr (.inr (.inr (.inr ⟨[], .inr ⟨hp, rfl⟩, hq, ?_⟩))))
      rw [ht, ← hp]
      rfl

/-! ### The sequencer's own steps -/

@[simp] theorem enter_exchange (s : State) (e : Exchange) (p : Phase) :
    (s.enter e p).host.exchange = some { e with phase := p } := rfl

@[simp] theorem enter_queue (s : State) (e : Exchange) (p : Phase) :
    (s.enter e p).host.queue = (p.commands e.invocation).map encode := rfl

@[simp] theorem enter_invocations (s : State) (e : Exchange) (p : Phase) :
    (s.enter e p).host.invocations = s.host.invocations := rfl

/-- The host's own steps touch `host` and `draws` and nothing else (R175). -/
theorem hostStep_frame (s : State) : hostStep s = { s with host := (hostStep s).host, draws := (hostStep s).draws } := by
  unfold hostStep
  split
  · unfold nextInvocation
    split <;> rfl
  · split
    · unfold nextInvocation
      split <;> rfl
    · unfold exchangeStep
      simp only []
      split <;> try rfl
      all_goals split <;> rfl

/-- Everything a step of the host's own can be: nothing, the next invocation taken up, or the exchange entering a phase with
what its transport has then seen. -/
theorem hostStep_cases (s : State) :
    hostStep s = s ∨
    (∃ inv rest, s.host.invocations = inv :: rest ∧ (∀ e, s.host.exchange = some e → ∃ o, e.phase = .done o) ∧
      hostStep s = (s.setHost { s.host with invocations := rest }).setExchange (Exchange.begin inv)) ∨
    (∃ e, s.host.exchange = some e ∧ (∀ o, e.phase ≠ .done o) ∧ hostStep s = exchangeStep e s) := by
  unfold hostStep
  cases he : s.host.exchange with
  | none =>
    unfold nextInvocation
    cases hi : s.host.invocations with
    | nil => exact .inl rfl
    | cons inv rest => exact .inr (.inl ⟨inv, rest, rfl, fun e h => (by cases h), rfl⟩)
  | some e =>
    cases hp : e.phase with
    | done o =>
      simp only [hp]
      unfold nextInvocation
      cases hi : s.host.invocations with
      | nil => exact .inl rfl
      | cons inv rest => exact .inr (.inl ⟨inv, rest, rfl, fun e' h => ⟨o, (by cases h; exact hp)⟩, rfl⟩)
    | _ => exact .inr (.inr ⟨e, rfl, by simp [hp], by simp [hp]⟩)

end Sys2Proof.Machine
end

