-- ==== Sys2Proof/Tests/Slice0.lean ====
section
/-! SUPPORT. Tests of one step each, with expected values from spec/95_test_vectors.md (the row is named); and, for every
statement with hypotheses, a theorem `witness_…` with a concrete state and operands that meet them. -/

open Sys2Proof Sys2Proof.Machine

namespace Sys2Proof.Tests

/-! ### Helpers -/

/-- The state an outcome leads to, if it is a next state. -/
def nextOf : Host.Outcome State Fault Refusal → Option State
  | .next t => some t
  | .fault _ => none
  | .refused _ => none

/-- The state a next step leads to; the reset state for the others. -/
def stateOf (o : Host.Outcome State Fault Refusal) : State := (nextOf o).getD State.reset

/-- After reset with the response frame present and equal to `bs`. -/
def withFrame (bs : List Byte) : State :=
  { State.reset with rxPresent := true, rxLen := bs.length, rxBuf := (List.range bs.length).zip bs }

/-- S3's response, completed. -/
def goodFrame : List Byte := [0x01, 0x03, 0x02, 0x2D, 0x42, 0x25, 0x25]

/-- A state with every flag but ILL_CMD and RX_OVF set, and RXBUF full: RX_CAP is 7 and the frame has 7 bytes. -/
def busy : State :=
  { withFrame goodFrame with
    rxCap := 7, txValid := true, txBuf := (List.range 8).zip [0x01, 0x03, 0x01, 0x01, 0x00, 0x01, 0xD4, 0x36],
    meas := some { raw := 0x2D42, scaled := 0x40921A6666666667 }, vstat := some 0x00 }

/-- The same with ILL_CMD and RX_OVF. -/
def flagged : State := { busy with illCmd := true, rxOvf := true }

/-- A word at the command port. -/
def atPort (s : State) (cw : CmdWord) : State := { s with port := [cmdEvent cw] }

/-- An invocation with the document's operands (R7). -/
def invocation (strict : Bool) (w : WriteResult) (r : ReadResult) : Invocation :=
  { request := { slaveAddress := 0x01, registerAddress := 0x0101 }, scale := Config.defaultScale, strict := strict,
    readMaxBytes := 256, quiescence := 3, onWrite := w, onRead := r }

/-- An exchange about to begin. -/
def beginning : State := State.reset.setExchange (Exchange.begin (invocation true .ok (.bytes goodFrame)))

/-- An exchange in a given phase, with the calls that belong to it. -/
def inPhase (p : Phase) (writes : List (List Byte)) (reads : Nat) : State :=
  State.reset.setExchange
    { invocation := invocation false (.fail "down") (.fail "down"), phase := p, writes := writes, reads := reads }

/-- Row 4 of R187: the request has been written, TX.DISCARD waits. -/
def discarding : State :=
  busy.enter { invocation := invocation false .ok .nothing, phase := .build, writes := [goodFrame], reads := 0 } .discard

/-- Row 7b has run and a byte was dropped. -/
def overflowed (strict : Bool) : State :=
  ({ withFrame goodFrame with rxCap := 7, rxOvf := true }).setExchange
    { invocation := invocation strict .ok (.bytes goodFrame), phase := .load, writes := [goodFrame], reads := 1 }

/-- Row 3 of R187: ENC.BUILD has run. -/
def built : State :=
  busy.setExchange { invocation := invocation true .ok .nothing, phase := .build, writes := [], reads := 0 }

/-- Row 8 of R187: DEC.VALIDATE has run. -/
def validated : State :=
  busy.setExchange { invocation := invocation true .ok .nothing, phase := .validate, writes := [goodFrame], reads := 1 }

/-! ### Decoding and encoding: words written out from R70 to R73 and 95_test_vectors.md -/

theorem test_decode_crcInit : decode 0x1FFFFFFFFFFFFFFFF = .ok .crcInit := by decide
theorem test_decode_crcUpdate : decode 0x2ABCDEF0123456701 = .ok (.crcUpdate 0x01) := by decide
theorem test_decode_encBuild : decode 0x3FFFFFFFFFF010101 = .ok (.encBuild 0x01 0x0101) := by decide
theorem test_decode_txDiscard : decode 0x40000000000000000 = .ok .txDiscard := by decide
theorem test_decode_rxClear : decode 0x50000000000000000 = .ok .rxClear := by decide
theorem test_decode_rxOpen : decode 0x60000000000000000 = .ok .rxOpen := by decide
theorem test_decode_rxPush : decode 0x7000000000000002D = .ok (.rxPush 0x2D) := by decide
theorem test_decode_decDecode : decode 0x83FB999999999999A = .ok (.decDecode 0x3FB999999999999A) := by decide
theorem test_decode_decValidate : decode 0x90000000000000002 = .ok (.decValidate 0x02) := by decide
theorem test_decode_reserved : decode 0xFFFFFFFFFFFFFFFFF = .error (.reservedOpcode 0xF) := by decide
theorem test_decode_reserved_zero : decode 0x00000000000000000 = .error (.reservedOpcode 0x0) := by decide
theorem test_encode_encBuild : encode (.encBuild 0xF7 0x1234) = 0x30000000000F71234 := by decide
theorem test_table_word : decodeTableWord 72 0x30000000000F71234 = some (.encBuild 0xF7 0x1234) := by decide
theorem test_table_word_reserved : decodeTableWord 68 0xA0000000000001234 = none := by decide

/-! ### Well-formedness: one ill-formed term for each check. `Instr.WellFormed` has none: every value is legal (R74). -/

theorem test_operandFits_refuses : operandFits 8 256 = false := by decide
theorem test_operandFits_accepts : operandFits 8 255 = true := by decide
theorem test_canonical_refuses_formatN : CmdWord.Canonical 0x10000000000000001 = false := by decide
theorem test_canonical_refuses_formatB : CmdWord.Canonical 0x20000000000000100 = false := by decide
theorem test_canonical_refuses_formatR : CmdWord.Canonical 0x30000000001000000 = false := by decide
theorem test_canonical_refuses_reserved : CmdWord.Canonical 0xA0000000000000000 = false := by decide
theorem test_line_refuses_slave : (AsmLine.encBuild 0x101 0x0101).WellFormed = false := by decide
theorem test_line_refuses_register : (AsmLine.encBuild 0x01 0x12345).WellFormed = false := by decide
theorem test_line_refuses_bytes : (AsmLine.rxLoad (some [0x01, 0x100])).WellFormed = false := by decide

/-! ### The assembler -/

/-- The encoding R76 writes out. -/
theorem test_wordText : wordText (encode (.encBuild 0x01 0x0101)) = "3:0000000000010101".toList := by decide
theorem test_readLine : readLine "ENC.BUILD 0x01, 257 ; S2".toList = some (some (.encBuild 0x01 0x0101)) := by decide
theorem test_readLine_decimal : readLine "DEC.DECODE -0.1".toList = some (some (.decDecode (.decimal true 1 1))) := by decide
theorem test_readLine_none : readLine "RX.LOAD none".toList = some (some (.rxLoad none)) := by decide
/-- Host-side truncation (section 2.2). -/
theorem test_line_masks : (AsmLine.encBuild 0x101 0x12345).expand = [.encBuild 0x01 0x2345] := by decide

/-! ### CRC commands (section 2.1) -/

theorem test_crcShift_carry : crcShift 0xA001 = 0xF001 := by decide
theorem test_crcShift_logical : crcShift 0x8000 = 0x4000 := by decide
theorem test_crcInit : nextOf (exec .crcInit { State.reset with crcAcc := 0x36D4 }) = some State.reset := by decide
theorem test_crcUpdate_continues :
    nextOf (exec (.crcUpdate 0x03) { State.reset with crcAcc := 0x807E }) = some { State.reset with crcAcc := 0x2140 } := by decide

set_option maxRecDepth 8000 in
/-- The check value of R109. -/
theorem test_computeCrc_check : computeCrc [0x31, 0x32, 0x33, 0x34, 0x35, 0x36, 0x37, 0x38, 0x39] = 0x4B37 := by decide

/-! ### Encoder commands (section 2.2) -/

set_option maxRecDepth 8000 in
/-- Row E5: the big-endian split, and the CRC low byte first. -/
theorem test_encBuild : (stateOf (exec (.encBuild 0xF7 0x1234) flagged)).txBytes =
    [some 0xF7, some 0x03, some 0x12, some 0x34, some 0x00, some 0x01, some 0xD4, some 0x2A] := by decide

set_option maxRecDepth 8000 in
theorem test_encBuild_crc : (stateOf (exec (.encBuild 0xF7 0x1234) flagged)).crcAcc = 0x2AD4 := by decide
theorem test_txDiscard : nextOf (exec .txDiscard busy) = some { busy with txValid := false, txBuf := [] } := by decide

/-! ### Loading and DEC.DECODE (section 2.3) -/

theorem test_rxClear : nextOf (exec .rxClear { flagged with txValid := false, txBuf := [] }) =
    some { State.reset with rxCap := 7, illCmd := true } := by decide
theorem test_rxOpen : (stateOf (exec .rxOpen State.reset)).status = 0x02 := by decide
/-- No RX.OPEN needed. -/
theorem test_rxPush_absent : nextOf (exec (.rxPush 0x01) State.reset) = some (withFrame [0x01]) := by decide
theorem test_rxPush_full : nextOf (exec (.rxPush 0x55) busy) = some { busy with rxOvf := true, meas := none, vstat := none } := by
  decide
/-- Row D6: 5 bytes decode. -/
theorem test_decDecode_five : (stateOf (exec (.decDecode 0x3FB999999999999A) (withFrame [0x01, 0x03, 0x02, 0x2D, 0x42]))).meas =
    some { raw := 0x2D42, scaled := 0x40921A6666666667 } := by decide
/-- Row D4: 4 bytes do not. -/
theorem test_decDecode_four : (stateOf (exec (.decDecode 0x3FB999999999999A) (withFrame [0x01, 0x03, 0x02, 0x2D]))).meas =
    none := by decide

/-! ### Scale (section 2.4) -/

theorem test_scale_x3 : scale 3 0x3FB999999999999A 0 = 0x3FD3333333333334 := by decide
theorem test_scale_x16 : scale 0 0xBFB999999999999A 0 = 0x8000000000000000 := by decide
theorem test_scale_x19 : scale 2 0x7FEFFFFFFFFFFFFF 0 = 0x7FF0000000000000 := by decide
theorem test_scale_x23 : scale 65535 0x000FFFFFFFFFFFFF 0 = 0x010FFFDFFFFFFFFE := by decide
theorem test_scale_x25 : scale 5 0xFFF0000000000000 0 = 0xFFF0000000000000 := by decide
theorem test_u16ToF64 : u16ToF64 11586 = 0x40C6A10000000000 := by decide

/-! ### DEC.VALIDATE (section 2.5) -/

set_option maxRecDepth 8000 in
/-- Row V9: only the address differs. -/
theorem test_decValidate_v9 : validateFrame (some [0x02, 0x03, 0x02, 0x04, 0xD2, 0x7E, 0xD9]) 0x01 = 0xC0 := by decide

set_option maxRecDepth 8000 in
/-- Row V14: the exception-shaped frame, and the CRC it leaves. -/
theorem test_decValidate_v14 : (stateOf (exec (.decValidate 0x01) (withFrame [0x01, 0x83, 0x02, 0xC0, 0xF1]))).vstat =
    some 0x94 := by decide

set_option maxRecDepth 8000 in
theorem test_decValidate_crc : (stateOf (exec (.decValidate 0x01) (withFrame goodFrame))).crcAcc = 0x2525 := by decide

/-! ### Ports and reset (section 2.6) -/

theorem test_reserved : nextOf (step (atPort busy 0xA0000000000001234)) = some { busy with illCmd := true } := by decide
theorem test_not_valid : nextOf (step { busy with port := [.pins false false 0x10000000000000000] }) = some busy := by decide
theorem test_reset_dominates : nextOf (step { flagged with resetSeen := false, port := [.pins true true 0x70000000000000055] }) =
    some { State.reset with rxCap := 7 } := by decide
theorem test_read_crc : readPort State.reset 1 0 = 0xFFFF := by decide
theorem test_read_tx : readPort busy 14 0 = 0xD4 := by decide
theorem test_status : flagged.status = 0x3F := by decide
theorem test_withFetchWord : nextOf (step (State.reset.withFetchWord 68 0x70000000000000001)) = some (withFrame [0x01]) := by decide
theorem test_reset_wf : State.reset.txBuf.wf ∧ State.reset.rxBuf.wf := by decide

/-! ### The host agent -/

/-- Rows 1 and 2 of R187: RX.CLEAR and ENC.BUILD wait to be run. -/
theorem test_exchange_build : (hostStep beginning).host.queue = [0x50000000000000000, 0x30000000000010101] := by decide

/-- A failed write ends the exchange with its cause, before any read (R184). -/
theorem test_exchange_write_fails : (hostStep (inPhase .build [] 0)).host.exchange.map Exchange.phase =
    some (.done (.transportError "down")) := by decide

/-- Row 4: TX.DISCARD runs in RequestSent, and row 5 moves on to AwaitingResponse only after it. -/
theorem test_exchange_discard :
    (stateOf (step discarding)).txValid = false ∧ discarding.host.state = some .requestSent ∧
    (stateOf (step discarding)).host.state = some .requestSent ∧
    (stateOf (step (stateOf (step discarding)))).host.state = some .awaitingResponse := by decide

/-- R231: a frame that overflowed is a rejected frame, in the plain sequence too. -/
theorem test_exchange_overflow : (hostStep (overflowed false)).host.state = some .completedAbsent := by decide

/-- R165, R231: the strict sequence validates such a frame first, and rejects it although VSTAT[7] = 0. -/
theorem test_exchange_overflow_strict :
    (hostStep (overflowed true)).host.queue = [0x90000000000000001] ∧
    (hostStep validated).host.exchange.map Exchange.phase = some .decode ∧
    (hostStep { validated with rxOvf := true }).host.state = some .completedAbsent := by decide

/-- R191: a command that the host issues beside the exchange falls between the exchange's own. -/
theorem test_exchange_interleaved :
    nextOf (step { discarding with port := [cmdEvent 0x10000000000000000] }) = some { discarding with crcAcc := 0xFFFF } := by
  decide

/-! ### Witnesses: states and operands that meet the hypotheses of each statement that has some -/

/-- `busy` meets the block's invariant, with every flag up and RX_LEN at RX_CAP. -/
theorem witness_inv : Inv busy where
  txIndices := by decide
  rxIndices := by decide
  absentEmpty := by decide
  lenBound := by decide
  capBound := by decide
  measOfFrame := by
    intro m hm
    have : m = { raw := 0x2D42, scaled := 0x40921A6666666667 } := (Option.some.inj hm).symm
    subst this
    decide
  vstatOfFrame := by
    intro v hv
    refine ⟨0x01, ?_⟩
    have : v = 0x00 := (Option.some.inj hv).symm
    subst this
    have hf : busy.rxFrame = some goodFrame := by
      rw [rxFrame_of_indices (by decide)]
      decide
    rw [hf]
    set_option maxRecDepth 8000 in decide
  txFrame := fun _ => ⟨0x01, 0x0101, by set_option maxRecDepth 8000 in decide⟩

theorem witness_ResetInputDominatesTheCommand :
    { flagged with port := [.pins true true 0x10000000000000000] }.port = .pins true true 0x10000000000000000 :: [] := rfl

theorem witness_NoCommandBeforeTheFirstReset :
    { State.reset with resetSeen := false, port := [cmdEvent 0x10000000000000000] }.resetSeen = false ∧
    { State.reset with resetSeen := false, port := [cmdEvent 0x10000000000000000] }.nextWord = some 0x10000000000000000 ∧
    { discarding with resetSeen := false }.nextWord = some 0x40000000000000000 ∧
    { State.reset with resetSeen := false, port := [.read 0] }.port = .read 0 :: [] := by decide

theorem witness_InvalidWordChangesNothing :
    { busy with port := [.pins false false 0x10000000000000000] }.port = .pins false false 0x10000000000000000 :: [] := rfl

theorem witness_StepRunsTheDecodedCommand :
    (atPort busy 0x10000000000000000).resetSeen = true ∧
    (atPort busy 0x10000000000000000).port = cmdEvent 0x10000000000000000 :: [] ∧
    decode 0x10000000000000000 = .ok .crcInit ∧ decodeTableWord 68 0x10000000000000000 = some .crcInit ∧
    discarding.resetSeen = true ∧ discarding.port = [] ∧ discarding.host.queue = [0x40000000000000000] ∧
    decode 0x40000000000000000 = .ok .txDiscard ∧ { discarding with port := [.idle] }.port = .idle :: [] := by decide

/-- Both ends of both ranges: 0x0, 0xA and 0xF are reserved, 0x1 and 0x9 are not. -/
theorem witness_ReservedOpcodeSetsIllCmdOnly :
    ((0x0 : BitVec 4) = 0x0 ∨ (0xA : BitVec 4) ≤ 0x0) ∧ ((0xA : BitVec 4) = 0x0 ∨ (0xA : BitVec 4) ≤ 0xA) ∧
    ((0xF : BitVec 4) = 0x0 ∨ (0xA : BitVec 4) ≤ 0xF) ∧ ¬ ((0x1 : BitVec 4) = 0x0 ∨ (0xA : BitVec 4) ≤ 0x1) ∧
    ¬ ((0x9 : BitVec 4) = 0x0 ∨ (0xA : BitVec 4) ≤ 0x9) ∧
    (atPort busy (mkWord 0xA 0x1234)).resetSeen = true ∧
    (atPort busy (mkWord 0xA 0x1234)).port = cmdEvent (mkWord 0xA 0x1234) :: [] := by decide

theorem witness_EveryStepAfterResetCompletes : busy.resetSeen = true := rfl

/-- With an exchange that goes on, at the end of the ports' list and on an `idle` event; with none; and with one that has
ended. -/
theorem witness_HostStepLeavesTheBlock :
    (beginning.port = [] ∧ beginning.host.queue = []) ∧
    ({ beginning with port := [.idle, .read 0] }.port = .idle :: [.read 0] ∧
      { beginning with port := [.idle, .read 0] }.host.queue = []) ∧
    (busy.host.queue = [] ∧ busy.host.invocations = [] ∧ ∀ e, busy.host.exchange = some e → ∃ o, e.phase = .done o) ∧
    ((inPhase (.done .absent) [goodFrame] 1).host.invocations = [] ∧
      ∀ e, (inPhase (.done .absent) [goodFrame] 1).host.exchange = some e → ∃ o, e.phase = .done o) := by
  refine ⟨⟨rfl, rfl⟩, ⟨rfl, rfl⟩, ⟨rfl, rfl, fun e h => (by cases h)⟩, rfl, fun e h => ?_⟩
  cases h
  exact ⟨.absent, rfl⟩

theorem witness_DecodeInvertsEncode : Instr.WellFormed (.encBuild 0xFF 0xFFFF) = true := rfl

theorem witness_EncodeInvertsDecode :
    CmdWord.Canonical 0x10000000000000000 = true ∧ CmdWord.Canonical 0x200000000000000FF = true ∧
    CmdWord.Canonical 0x30000000000FFFFFF = true ∧ CmdWord.Canonical 0x8FFFFFFFFFFFFFFFF = true := by decide

theorem witness_EncBuildLineAssembles : (AsmLine.encBuild 0xFF 0xFFFF).WellFormed = true := by decide

theorem witness_CrcInitSetsOnlyTheAccumulator :
    (atPort busy (mkWord 0x1 0xFFFFFFFFFFFFFFFF)).resetSeen = true ∧
    (atPort busy (mkWord 0x1 0xFFFFFFFFFFFFFFFF)).port = cmdEvent (mkWord 0x1 0xFFFFFFFFFFFFFFFF) :: [] := by decide

/-- The bit steps that section 2.1 writes out for CrcByte(0xFFFF, 0x01). -/
theorem witness_CrcUpdateIsEightBitSteps :
    let x : Nat → Half := fun k => [0xFFFE, 0x7FFF, 0x9FFE, 0x4FFF, 0x87FE, 0x43FF, 0x81FE, 0x40FF, 0x807E].getD k 0
    x 0 = State.reset.crcAcc ^^^ (0x01 : Byte).setWidth 16 ∧
    ∀ k, k < 8 → x (k + 1) = if (x k).getLsbD 0 then (x k >>> 1) ^^^ 0xA001 else x k >>> 1 := by decide

theorem witness_CrcStreamsByteByByte :
    ∀ i ∈ [Instr.crcUpdate 0x01, .rxPush 0x03, .decDecode 0, .crcUpdate 0x03],
      i ≠ .crcInit ∧ (∀ sa ra, i ≠ .encBuild sa ra) ∧ ∀ ea, i ≠ .decValidate ea := by
  intro i hi
  fin_cases hi <;> simp

theorem witness_RequestFrameIsDeterministic :
    exec (.encBuild 0x01 0x0101) State.reset = .next (stateOf (exec (.encBuild 0x01 0x0101) State.reset)) ∧
    exec (.encBuild 0x01 0x0101) flagged = .next (stateOf (exec (.encBuild 0x01 0x0101) flagged)) := ⟨rfl, rfl⟩

theorem witness_TxDiscardEmptiesTheBuffer :
    (atPort busy (mkWord 0x4 0x1)).resetSeen = true ∧
    (atPort busy (mkWord 0x4 0x1)).port = cmdEvent (mkWord 0x4 0x1) :: [] := by decide

/-- One byte short of full, and full. -/
theorem witness_RxPushAppendsOrOverflows :
    { withFrame [0x01, 0x03, 0x02, 0x2D, 0x42, 0x25] with rxCap := 7 }.rxLen < 7 ∧ busy.rxLen = busy.rxCap := by decide

theorem witness_PseudoCommandsLoadAndCompute : goodFrame.length ≤ busy.rxCap := by decide

/-- Both clauses: each RX command, and a command that leaves a result. -/
theorem witness_NoResultOutlivesItsFrame :
    (Instr.rxPush 0x55 = .rxClear ∨ Instr.rxPush 0x55 = .rxOpen ∨ Instr.rxPush 0x55 = .rxPush 0x55) ∧
    exec .crcInit busy = .next (stateOf (exec .crcInit busy)) ∧
    ((stateOf (exec .crcInit busy)).measValid = true ∨ (stateOf (exec .crcInit busy)).vsValid = true) :=
  ⟨.inr (.inr rfl), rfl, .inl rfl⟩

/-- Rows D4 and D6, the two sides of 5 bytes; and rows D10 and D12, which agree in the two bytes. -/
theorem witness_DecodeFrameLooksAtTwoBytes :
    ([0x01, 0x03, 0x02, 0x2D] : List Byte).length < 5 ∧ 5 ≤ ([0x01, 0x03, 0x02, 0x2D, 0x42] : List Byte).length ∧
    5 ≤ ([0x02, 0x04, 0x09, 0x2D, 0x42, 0x00, 0x00] : List Byte).length ∧
    ([0x01, 0x03, 0x02, 0x2D, 0x42] : List Byte)[3]? = ([0x02, 0x04, 0x09, 0x2D, 0x42, 0x00, 0x00] : List Byte)[3]? ∧
    ([0x01, 0x03, 0x02, 0x2D, 0x42] : List Byte)[4]? = ([0x02, 0x04, 0x09, 0x2D, 0x42, 0x00, 0x00] : List Byte)[4]? := by
  decide

theorem witness_DecDecodeMeasuresOffsetsThreeAndFour :
    (State.reset.rxPresent = false ∨ State.reset.rxLen < 5) ∧
    ((withFrame [0x01, 0x03, 0x02, 0x2D]).rxPresent = false ∨ (withFrame [0x01, 0x03, 0x02, 0x2D]).rxLen < 5) ∧
    (withFrame [0x01, 0x03, 0x02, 0x2D, 0x42]).rxPresent = true ∧ 5 ≤ (withFrame [0x01, 0x03, 0x02, 0x2D, 0x42]).rxLen ∧
    memRead (withFrame [0x01, 0x03, 0x02, 0x2D, 0x42]).rxBuf 3 = some 0x2D ∧
    memRead (withFrame [0x01, 0x03, 0x02, 0x2D, 0x42]).rxBuf 4 = some 0x42 := by decide

theorem witness_DecodeIsRepeatable :
    Inv busy ∧ exec (.decDecode 0) busy = .next (stateOf (exec (.decDecode 0) busy)) ∧
    exec (.decDecode 0) (stateOf (exec (.decDecode 0) busy)) =
      .next (stateOf (exec (.decDecode 0) (stateOf (exec (.decDecode 0) busy)))) := ⟨witness_inv, rfl, rfl⟩

/-- The smallest and a usual NaN, both infinities, and the largest finite word. -/
theorem witness_ScaleBySignAndRoundedProduct :
    f64IsNaN 0x7FF0000000000001 = true ∧ f64IsNaN 0x7FF8000000000000 = true ∧ f64IsInf 0x7FF0000000000000 = true ∧
    f64IsInf 0xFFF0000000000000 = true ∧ f64IsFinite 0x7FEFFFFFFFFFFFFF = true ∧ f64IsFinite 0x8000000000000000 = true := by
  decide

/-- Infinity is reached, and so are finite words; and 1 + 2^-53 is a tie between two words, the even one of which is 1. -/
theorem witness_RoundMagIsNearestTiesToEven :
    magExp (roundMag { num := 1, den := 1, exp := 1024 }) = 2047 ∧
    magExp (roundMag { num := 2 ^ 53 + 1, den := 2 ^ 53, exp := 0 }) ≠ 2047 ∧
    roundMag { num := 2 ^ 53 + 1, den := 2 ^ 53, exp := 0 } = magField 1023 0 ∧ magExp (magField 1023 1) ≠ 2047 := by decide

theorem witness_ScaleOfOneIsTheFactor : f64IsNaN 0x7FF0000000000000 = false ∧ f64IsNaN 0x0000000000000001 = false := by
  decide

/-- 4 bytes; and 5, where the transmitted CRC overlaps the data. -/
theorem witness_ValidateFrameBits :
    let f : List Byte := [0x01, 0x03, 0x02, 0x04, 0xD2]
    ([0x01, 0x03, 0x02, 0x2D] : List Byte).length < 5 ∧ 5 ≤ f.length ∧ f[0]? = some 0x01 ∧ f[1]? = some 0x03 ∧
    f[2]? = some 0x02 ∧ f[f.length - 2]? = some 0x04 ∧ f[f.length - 1]? = some 0xD2 := by decide

theorem witness_DecValidateReportsTheFrame :
    State.reset.rxPresent = false ∧
    ((withFrame [0x01, 0x03, 0x02, 0x2D]).rxPresent = true ∧ (withFrame [0x01, 0x03, 0x02, 0x2D]).rxLen < 5) ∧
    (withFrame [0x01, 0x03, 0x02, 0x04, 0xD2]).rxPresent = true ∧ 5 ≤ (withFrame [0x01, 0x03, 0x02, 0x04, 0xD2]).rxLen ∧
    ([0x01, 0x03, 0x02, 0x04, 0xD2] : List Byte).length = (withFrame [0x01, 0x03, 0x02, 0x04, 0xD2]).rxLen ∧
    ∀ a, a < (withFrame [0x01, 0x03, 0x02, 0x04, 0xD2]).rxLen →
      memRead (withFrame [0x01, 0x03, 0x02, 0x04, 0xD2]).rxBuf a = ([0x01, 0x03, 0x02, 0x04, 0xD2] : List Byte)[a]? := by
  decide

/-- Row V1. -/
theorem witness_AcceptedFrameDecodes :
    exec (.decValidate 0x01) (withFrame goodFrame) = .next (stateOf (exec (.decValidate 0x01) (withFrame goodFrame))) ∧
    (stateOf (exec (.decValidate 0x01) (withFrame goodFrame))).vstat = some 0x00 ∧ (0x00 : Byte).getLsbD 7 = false :=
  ⟨rfl, by set_option maxRecDepth 8000 in decide, by decide⟩

/-- The longest RX_LEN that 16 bits show; the results of `busy`; the last byte of TXBUF; a read event. -/
theorem witness_ReadPortShowsTheItems :
    { State.reset with rxLen := 65535, rxCap := 65535 }.rxLen < 2 ^ 16 ∧
    busy.meas = some { raw := 0x2D42, scaled := 0x40921A6666666667 } ∧ busy.vstat = some 0x00 ∧
    busy.txValid = true ∧ memRead busy.txBuf 7 = some 0x36 ∧
    { busy with port := [.read 15] }.resetSeen = true ∧ { busy with port := [.read 15] }.port = .read 15 :: [] := by decide

/-- A read of the last byte of TXBUF, and of STATUS right after reset; the sequencer's reads at rows 3 and 8, which break
the rules when TX.DISCARD or an RX command has come in between. -/
theorem witness_RuleKeepingHostSeesNoFreeValue :
    HostKeepsRules { busy with port := [.read 15] } = true ∧ { busy with port := [.read 15] }.port = .read 15 :: [] ∧
    HostKeepsRules { State.reset with port := [.read 0] } = true ∧
    HostKeepsRules { State.reset with port := [.read 15] } = false ∧
    (HostKeepsRules built = true ∧ step built = .next (stateOf (step built)) ∧
      step { built with draws := 5 } = .next (stateOf (step { built with draws := 5 }))) ∧
    HostKeepsRules { validated with port := [.idle] } = true ∧ HostKeepsRules discarding = true ∧
    HostKeepsRules { built with txValid := false } = false ∧ HostKeepsRules { validated with vstat := none } = false :=
  ⟨by decide, rfl, by decide, by decide, ⟨by decide, rfl, rfl⟩, by decide, by decide, by decide, by decide⟩

/-- A push into the full buffer, from a state with the invariant. -/
theorem witness_EveryStepKeepsTheBlockInvariant :
    Inv (atPort busy 0x70000000000000055) ∧
    step (atPort busy 0x70000000000000055) = .next { busy with rxOvf := true, meas := none, vstat := none } :=
  ⟨⟨witness_inv.txIndices, witness_inv.rxIndices, witness_inv.absentEmpty, witness_inv.lenBound, witness_inv.capBound,
    witness_inv.measOfFrame, witness_inv.vstatOfFrame, witness_inv.txFrame⟩, rfl⟩

theorem witness_ResetEstablishesTheBlockInvariant : 7 ≤ busy.rxCap := by decide

/-- Both ways in which ILL_CMD changes. -/
theorem witness_IllCmdIsStickyUntilReset :
    step (atPort busy 0x00000000000000000) = .next { busy with illCmd := true } ∧
    { busy with illCmd := true }.illCmd ≠ (atPort busy 0x00000000000000000).illCmd ∧
    step { flagged with port := [.pins true false 0] } = .next { State.reset with rxCap := 7 } ∧
    { State.reset with rxCap := 7 }.illCmd ≠ { flagged with port := [.pins true false 0] }.illCmd :=
  ⟨rfl, by decide, rfl, by decide⟩

/-- One step that clears each of the five flags, and a DEC.DECODE of a frame of 4 bytes, one too short. -/
theorem witness_FlagsAreClearedInNoOtherWay :
    step (atPort flagged 0x40000000000000000) = .next { flagged with txValid := false, txBuf := [] } ∧
    (flagged.txValid = true ∧ { flagged with txValid := false, txBuf := [] }.txValid = false) ∧
    (flagged.rxPresent = true ∧ (stateOf (step (atPort flagged 0x50000000000000000))).rxPresent = false) ∧
    (flagged.rxOvf = true ∧ (stateOf (step (atPort flagged 0x60000000000000000))).rxOvf = false) ∧
    (flagged.measValid = true ∧ (stateOf (step (atPort flagged 0x70000000000000000))).measValid = false) ∧
    (flagged.vsValid = true ∧ (stateOf (step (atPort flagged 0x70000000000000000))).vsValid = false) ∧
    (flagged.measValid = true ∧ { flagged with rxLen := 4 }.rxLen < 5 ∧
      (stateOf (step (atPort { flagged with rxLen := 4 } 0x80000000000000000))).measValid = false) :=
  ⟨rfl, by decide, by decide, by decide, by decide, by decide, by decide, by decide, rfl⟩

set_option maxRecDepth 8000 in
/-- For each clause a command that writes the register. -/
theorem witness_CommandsWriteOnlyTheirRow :
    (stateOf (exec (.crcUpdate 0x01) busy)).crcAcc ≠ busy.crcAcc ∧ (stateOf (exec .txDiscard busy)).txValid ≠ busy.txValid ∧
    (stateOf (exec .rxOpen busy)).rxLen ≠ busy.rxLen ∧ (stateOf (exec .rxClear busy)).meas ≠ busy.meas ∧
    (stateOf (exec (.decValidate 0x02) busy)).vstat ≠ busy.vstat := by decide

/-- With RX_LEN at RX_CAP for the reads, and one below it for the write. -/
theorem witness_NoCommandReadsAnUnwrittenByte :
    Inv busy ∧ exec (.decValidate 0x01) busy = .next (stateOf (exec (.decValidate 0x01) busy)) ∧
    exec (.decDecode 0) busy = .next (stateOf (exec (.decDecode 0) busy)) ∧
    memRead (stateOf (exec (.rxPush 0x25) { withFrame [0x01, 0x03, 0x02, 0x2D, 0x42, 0x25] with rxCap := 7 })).rxBuf 6 ≠
      memRead (withFrame [0x01, 0x03, 0x02, 0x2D, 0x42, 0x25]).rxBuf 6 := ⟨witness_inv, rfl, rfl, by decide⟩

/-- The step that writes, from a state in which no call has been made. -/
theorem witness_EveryStepKeepsOneWriteAtMostOneRead :
    CallsInv (inPhase .build [] 0) ∧ step (inPhase .build [] 0) = .next (hostStep (inPhase .build [] 0)) := by
  refine ⟨fun e h => ?_, rfl⟩
  cases h
  exact ⟨rfl, rfl⟩

/-- With a command waiting, and between two commands. -/
theorem witness_EveryStepKeepsCommandsInTheirRow :
    RowInv discarding ∧ step discarding = .next (stateOf (step discarding)) ∧ RowInv beginning ∧
    step beginning = .next (stateOf (step beginning)) :=
  ⟨⟨[], rfl⟩, rfl, ⟨[], rfl⟩, rfl⟩

theorem witness_ExchangeCommandsRunInTheirState :
    RowInv discarding ∧ discarding.resetSeen = true ∧ discarding.port = [] ∧
    discarding.host.queue = 0x40000000000000000 :: [] ∧ decode 0x40000000000000000 = .ok .txDiscard ∧
    RowInv { discarding with port := [.idle, .read 0] } ∧
    { discarding with port := [.idle, .read 0] }.port = .idle :: [.read 0] :=
  ⟨⟨[], rfl⟩, rfl, rfl, rfl, by decide, ⟨[], rfl⟩, rfl⟩

/-- In the middle of an exchange, each kind of event. -/
theorem witness_PortEventsFallBetweenExchangeSteps :
    discarding.resetSeen = true ∧
    { discarding with port := [.pins true false 0] }.port = .pins true false 0 :: [] ∧
    { discarding with port := [cmdEvent 0x10000000000000000] }.port = .pins false true 0x10000000000000000 :: [] ∧
    { discarding with port := [.read 0] }.port = .read 0 :: [] ∧
    { discarding with port := [.idle] }.port = .idle :: [] := by decide

/-- READ_MAX_BYTES at its bounds: 256 at a capacity of 256, and 7 at a capacity of 7 in the strict sequence; 257 is too
many, and 6 too few there. -/
theorem witness_EveryStepKeepsHostParametersLegal :
    ParamsInv beginning ∧ step beginning = .next (stateOf (step beginning)) ∧
    (invocation true .ok .nothing).keepsRules 256 = true ∧
    { invocation true .ok .nothing with readMaxBytes := 7 }.keepsRules 7 = true ∧
    { invocation true .ok .nothing with readMaxBytes := 257 }.keepsRules 256 = false ∧
    { invocation true .ok .nothing with readMaxBytes := 6 }.keepsRules 256 = false ∧
    { invocation false .ok .nothing with quiescence := 0 }.keepsRules 256 = false ∧
    beginning.host.exchange.map (fun e => e.invocation.loadCommands.length) = some 8 := by
  refine ⟨⟨fun inv h => (by cases h), fun e h => ?_⟩, rfl, by decide⟩
  cases h
  decide

theorem witness_ResetEstablishesTheHostInvariants :
    ParamsInv State.reset ∧ (invocation true .ok .nothing).keepsRules State.reset.rxCap = true :=
  ⟨⟨fun inv h => (by cases h), fun e h => (by cases h)⟩, by decide⟩

/-- A strict exchange with a good frame; `invocation` with other answers gives the other clauses, and a capacity of 6 the
overflow. -/
theorem witness_ExchangeRunsToItsOutcome :
    beginning.resetSeen = true ∧ beginning.port = [] ∧ beginning.host.queue = [] ∧
    beginning.host.exchange = some (Exchange.begin (invocation true .ok (.bytes goodFrame))) ∧
    (invocation false (.fail "down") .nothing).onWrite = .fail "down" ∧ (invocation false .ok (.fail "late")).onRead = .fail "late" ∧
    (invocation false .ok .nothing).onRead = .nothing ∧ { beginning with rxCap := 6 }.rxCap < (goodFrame.take 256).length ∧
    ¬ { beginning with rxCap := 7 }.rxCap < (goodFrame.take 256).length :=
  ⟨rfl, rfl, rfl, rfl, rfl, rfl, rfl, by decide, by decide⟩

end Sys2Proof.Tests
end

section
/-! PROOFS of the statements about the reset state, STATUS and the read port (10_state.md R29, R32, R35). First what each
select of the read port shows and what a read event does, said once; then the statements from these lemmas. -/

namespace Sys2Proof.Machine

/-! ### What the registers show while they hold a value -/

theorem measRaw_of_meas {s : State} {m : Measurement} (h : s.meas = some m) : s.measRaw = some m.raw := by
  simp only [State.measRaw, h, Option.map_some]

theorem measScaled_of_meas {s : State} {m : Measurement} (h : s.meas = some m) : s.measScaled = some m.scaled := by
  simp only [State.measScaled, h, Option.map_some]

theorem txByte_of_txValid {s : State} (h : s.txValid = true) (i : Nat) : s.txByte i = memRead s.txBuf i := by
  simp only [State.txByte, h, if_true]

/-! ### The read port, one lemma per row of R32's table -/

@[simp] theorem portItem_some {w : Nat} (v : BitVec w) (u : BitVec 64) : portItem (some v) u = v.setWidth 64 := rfl

theorem readPort_status (s : State) (u : BitVec 64) : readPort s 0 u = s.status.setWidth 64 := rfl

theorem readPort_crcAcc (s : State) (u : BitVec 64) : readPort s 1 u = s.crcAcc.setWidth 64 := rfl

theorem readPort_rxLen (s : State) (u : BitVec 64) : readPort s 2 u = (BitVec.ofNat 16 s.rxLen).setWidth 64 := rfl

theorem readPort_measRaw (s : State) (u : BitVec 64) : readPort s 3 u = portItem s.measRaw u := rfl

theorem readPort_measScaled (s : State) (u : BitVec 64) : readPort s 4 u = portItem s.measScaled u := rfl

theorem readPort_vstat (s : State) (u : BitVec 64) : readPort s 5 u = portItem s.vstat u := rfl

theorem readPort_funcCode (s : State) (u : BitVec 64) : readPort s 6 u = 0x03 := rfl

theorem readPort_regCount (s : State) (u : BitVec 64) : readPort s 7 u = 0x0001 := rfl

/-- Selects 8 to 15 are TXBUF[0] to TXBUF[7]. -/
theorem readPort_txByte (s : State) {i : Nat} (hi : i < 8) (u : BitVec 64) :
    readPort s (BitVec.ofNat 4 (8 + i)) u = portItem (s.txByte i) u := by
  have hsel : (BitVec.ofNat 4 (8 + i)).toNat = i + 8 := by
    rw [BitVec.toNat_ofNat]
    omega
  simp only [readPort, hsel, Nat.add_sub_cancel]

/-- An RX_LEN that 16 bits hold is shown whole. -/
theorem readPort_rxLen_of_lt {s : State} (h : s.rxLen < 2 ^ 16) (u : BitVec 64) :
    readPort s 2 u = BitVec.ofNat 64 s.rxLen := by
  rw [readPort_rxLen, BitVec.setWidth_ofNat_of_le_of_lt (by decide) h]

/-! ### A read event -/

/-- A read event after a reset is carried out, with the event used up. -/
theorem step_read {s : State} {sel : BitVec 4} {rest : List PortEvent} (hr : s.resetSeen = true)
    (hp : s.port = .read sel :: rest) : step s = .next (portReadEvent sel (s.setPort rest)) := by
  simp only [step, hp, portStep, readStep, State.setPort_resetSeen, hr, if_true]

/-- A read event leaves every register and buffer as it was: the host has the item, and one free value is drawn (R32). -/
theorem portReadEvent_setPort (s : State) (sel : BitVec 4) (rest : List PortEvent) :
    portReadEvent sel (s.setPort rest) =
      { s with port := rest, draws := s.draws + 1, host := { s.host with lastRead := some (sel, s.portRead sel) } } := rfl

/-! ### The statements -/

/-- Settles O42: the rows of R32's table one by one, and the read event with the free value of the next draw. -/
theorem readPortShowsTheItems : Obligations.ReadPortShowsTheItems := by
  unfold Obligations.ReadPortShowsTheItems
  constructor
  · intro s u
    refine ⟨readPort_status s u, readPort_crcAcc s u, fun h => readPort_rxLen_of_lt h u, ?meas, ?vstat,
      readPort_funcCode s u, readPort_regCount s u, ?txBuf⟩
    case meas =>
      intro m hm
      constructor
      · rw [readPort_measRaw, measRaw_of_meas hm, portItem_some]
      · rw [readPort_measScaled, measScaled_of_meas hm, portItem_some, BitVec.setWidth_eq]
    case vstat =>
      intro v hv
      rw [readPort_vstat, hv, portItem_some]
    case txBuf =>
      intro i b hi hvalid hb
      rw [readPort_txByte s hi, txByte_of_txValid hvalid, hb, portItem_some]
  · intro s sel rest hr hp
    refine ⟨Config.freeRead s.draws sel, s.draws + 1, ?_⟩
    rw [step_read hr hp, portReadEvent_setPort, State.portRead]

/-- Settles O1: `State.reset` lists R35's values, and STATUS, TXBUF and the two constants are views of them. -/
theorem resetStateIsTheTable : Obligations.ResetStateIsTheTable := by
  unfold Obligations.ResetStateIsTheTable
  have hstatus : State.reset.status = 0x00 := by decide
  exact ⟨rfl, rfl, fun _ => rfl, rfl, rfl, memRead_memNone, rfl, rfl, rfl, rfl, rfl, rfl, rfl, hstatus,
    readPort_funcCode State.reset, readPort_regCount State.reset⟩

/-- Settles O41: STATUS is a flag word, whose bits are its eight flags in order. -/
theorem statusCollectsTheFlags : Obligations.StatusCollectsTheFlags := fun s =>
  flagWord_bits false false s.illCmd s.vsValid s.measValid s.rxOvf s.rxPresent s.txValid

end Sys2Proof.Machine
end

section
/-! PROOFS of the statements about the opcode map and the reserved opcodes (30_encoding.md R70 to R74). First what the
decoder makes of each opcode, said once for every data field; then what a step on a reserved opcode does; then the
statements from these lemmas. -/

namespace Sys2Proof

/-! ### The decoder, one lemma per row of R73's map -/

@[simp] theorem decode_mkWord_crcInit (d : BitVec 64) : decode (mkWord 0x1 d) = .ok .crcInit := by
  simp [decode]

@[simp] theorem decode_mkWord_crcUpdate (d : BitVec 64) :
    decode (mkWord 0x2 d) = .ok (.crcUpdate (d.extractLsb' 0 8)) := by
  simp [decode]

@[simp] theorem decode_mkWord_encBuild (d : BitVec 64) :
    decode (mkWord 0x3 d) = .ok (.encBuild (d.extractLsb' 16 8) (d.extractLsb' 0 16)) := by
  simp [decode]

@[simp] theorem decode_mkWord_txDiscard (d : BitVec 64) : decode (mkWord 0x4 d) = .ok .txDiscard := by
  simp [decode]

@[simp] theorem decode_mkWord_rxClear (d : BitVec 64) : decode (mkWord 0x5 d) = .ok .rxClear := by
  simp [decode]

@[simp] theorem decode_mkWord_rxOpen (d : BitVec 64) : decode (mkWord 0x6 d) = .ok .rxOpen := by
  simp [decode]

@[simp] theorem decode_mkWord_rxPush (d : BitVec 64) : decode (mkWord 0x7 d) = .ok (.rxPush (d.extractLsb' 0 8)) := by
  simp [decode]

@[simp] theorem decode_mkWord_decDecode (d : BitVec 64) : decode (mkWord 0x8 d) = .ok (.decDecode d) := by
  simp [decode]

@[simp] theorem decode_mkWord_decValidate (d : BitVec 64) :
    decode (mkWord 0x9 d) = .ok (.decValidate (d.extractLsb' 0 8)) := by
  simp [decode]

theorem decode_mkWord_reserved {op : BitVec 4} (h : op = 0x0 ∨ 0xA ≤ op) (d : BitVec 64) :
    decode (mkWord op d) = .error (.reservedOpcode op) := by
  unfold decode
  rw [opcode_mkWord]
  split
  case h_10 => rfl
  all_goals bv_omega

theorem eq_command_opcode {op : BitVec 4} (h : ¬ (op = 0x0 ∨ 0xA ≤ op)) :
    op = 0x1 ∨ op = 0x2 ∨ op = 0x3 ∨ op = 0x4 ∨ op = 0x5 ∨ op = 0x6 ∨ op = 0x7 ∨ op = 0x8 ∨ op = 0x9 := by
  bv_omega

/-- Every opcode that is not reserved stands for a command, with every data field. -/
theorem exists_decode_mkWord {op : BitVec 4} (h : ¬ (op = 0x0 ∨ 0xA ≤ op)) (d : BitVec 64) :
    ∃ i, decode (mkWord op d) = .ok i := by
  obtain rfl | rfl | rfl | rfl | rfl | rfl | rfl | rfl | rfl := eq_command_opcode h
  exacts [⟨_, decode_mkWord_crcInit d⟩, ⟨_, decode_mkWord_crcUpdate d⟩, ⟨_, decode_mkWord_encBuild d⟩,
    ⟨_, decode_mkWord_txDiscard d⟩, ⟨_, decode_mkWord_rxClear d⟩, ⟨_, decode_mkWord_rxOpen d⟩,
    ⟨_, decode_mkWord_rxPush d⟩, ⟨_, decode_mkWord_decDecode d⟩, ⟨_, decode_mkWord_decValidate d⟩]

/-- Every value of every operand field is legal (R74). -/
theorem Instr.wellFormed_eq_true (i : Instr) : i.WellFormed = true := by
  cases i <;> rfl

end Sys2Proof

namespace Sys2Proof.Machine

/-! ### A step on a word of the ports' list -/

theorem nextWord_of_port {s : State} {cw : CmdWord} {rest : List PortEvent} (hp : s.port = cmdEvent cw :: rest) :
    s.nextWord = some cw := by
  simp only [State.nextWord, hp, cmdEvent]

theorem taken_of_port {s : State} {cw : CmdWord} {rest : List PortEvent} (hp : s.port = cmdEvent cw :: rest) :
    s.taken = s.setPort rest := by
  simp only [State.taken, hp, cmdEvent]

theorem step_reserved {s : State} {cw : CmdWord} {op : BitVec 4} (hr : s.resetSeen = true) (h : s.nextWord = some cw)
    (hd : decode cw = .error (.reservedOpcode op)) : step s = .next (reservedOpcode s.taken) := by
  rw [step_word hr h]
  simp only [issue, hd]

/-! ### The statements -/

/-- Settles O11: the decoder's lemmas, row by row. -/
theorem opcodeMapIsComplete : Obligations.OpcodeMapIsComplete := by
  unfold Obligations.OpcodeMapIsComplete
  intro d
  exact ⟨decode_mkWord_crcInit d, decode_mkWord_crcUpdate d, decode_mkWord_encBuild d, decode_mkWord_txDiscard d,
    decode_mkWord_rxClear d, decode_mkWord_rxOpen d, decode_mkWord_rxPush d, decode_mkWord_decDecode d,
    decode_mkWord_decValidate d, fun _ hop => decode_mkWord_reserved hop d⟩

/-- Settles O6: a reserved opcode decodes to no command, so its step is `reservedOpcode`, which writes ILL_CMD alone; the
decoder gives every other opcode a command, and every command is well formed. -/
theorem reservedOpcodeSetsIllCmdOnly : Obligations.ReservedOpcodeSetsIllCmdOnly := by
  unfold Obligations.ReservedOpcodeSetsIllCmdOnly
  constructor
  · intro s op data rest hop hr hp
    rw [step_reserved hr (nextWord_of_port hp) (decode_mkWord_reserved hop data), taken_of_port hp]
    rfl
  · intro op data hop
    obtain ⟨i, hi⟩ := exists_decode_mkWord hop data
    exact ⟨i, hi, i.wellFormed_eq_true⟩

end Sys2Proof.Machine
end

section
/-! PROOFS of the statements about the CRC engine (40_crc.md R100, R101, R104, R105, R107). First the bit steps as a
sequence of values and the two commands' exact next states; then the statements from these lemmas. -/

namespace Sys2Proof.Machine

/-! ### The bit steps and the two commands -/

/-- Values that follow one another by the bit step, `n` times, lead from the first to where `n` bit steps lead. -/
theorem crcShifts_of_forall_step {n : Nat} {x : Nat → Half} (h : ∀ k, k < n → x (k + 1) = crcShift (x k)) :
    crcShifts n (x 0) = x n := by
  induction n generalizing x with
  | zero => rfl
  | succ n ih =>
    have htail : crcShifts n (x 1) = x (n + 1) :=
      ih (x := fun k => x (k + 1)) fun k hk => h (k + 1) (Nat.succ_lt_succ hk)
    rw [crcShifts, ← h 0 n.succ_pos, htail]

theorem exec_crcInit (s : State) : exec .crcInit s = .next (s.setCrc 0xFFFF) := rfl

theorem exec_crcUpdate (b : Byte) (s : State) : exec (.crcUpdate b) s = .next (s.setCrc (crcByte s.crcAcc b)) := rfl

/-! ### The statements -/

/-- Settles O16: the nine values follow one another by `crcShift`, so the last is where the eight bit steps of `crcByte`
lead, by induction on the number of steps. -/
theorem crcUpdateIsEightBitSteps : Obligations.CrcUpdateIsEightBitSteps := by
  unfold Obligations.CrcUpdateIsEightBitSteps
  intro s b x hx0 hstep
  have hbyte : crcByte s.crcAcc b = x 8 := by
    rw [crcByte, zext16, ← hx0]
    exact crcShifts_of_forall_step hstep
  rw [exec_crcUpdate, hbyte, State.setCrc]

/-- Settles O15: the command's exact next state, and the decoder's row for opcode 0x1, whatever the data field. -/
theorem crcInitSetsOnlyTheAccumulator : Obligations.CrcInitSetsOnlyTheAccumulator := by
  unfold Obligations.CrcInitSetsOnlyTheAccumulator
  intro s
  refine ⟨exec_crcInit s, ?_⟩
  intro data rest hr hp
  rw [step_instr hr (nextWord_of_port hp) (decode_mkWord_crcInit data), taken_of_port hp, exec_crcInit]
  rfl

/-- Settles O19: the four CRCs of R107, evaluated; the XOR of the first two is not the third. -/
theorem crcIsNotCompositional : Obligations.CrcIsNotCompositional := by
  unfold Obligations.CrcIsNotCompositional
  have h01 : computeCrc [0x01] = 0x807E := by decide
  have h03 : computeCrc [0x03] = 0x41FF := by decide
  have h0103 : computeCrc [0x01, 0x03] = 0x2140 := by decide
  have h0301 : computeCrc [0x03, 0x01] = 0x80C0 := by decide
  rw [h01, h03, h0103, h0301]
  decide

end Sys2Proof.Machine
end

section
/-! PROOFS of the statements about what ENC.BUILD and TX.DISCARD write (41_request_encoder.md R120 to R123). First the
bytes of the frame, what a buffer reads after a frame was written to it, and the two commands' exact next
states; then the statements from these lemmas. -/

namespace Sys2Proof.Machine

/-! ### The frame's bytes and the transmit buffer -/

/-- The body, offset by offset (R120). -/
theorem buildBody_eq (sa : Byte) (ra : Half) :
    buildBody sa ra = [sa, 0x03, ra.extractLsb' 8 8, ra.extractLsb' 0 8, 0x00, 0x01] := rfl

/-- The frame, offset by offset, over the CRC of its body (R121). -/
theorem buildFrame_eq (sa : Byte) (ra : Half) :
    buildFrame sa ra =
      [sa, 0x03, ra.extractLsb' 8 8, ra.extractLsb' 0 8, 0x00, 0x01,
        (computeCrc (buildBody sa ra)).extractLsb' 0 8, (computeCrc (buildBody sa ra)).extractLsb' 8 8] := rfl

theorem buildFrame_length (sa : Byte) (ra : Half) : (buildFrame sa ra).length = 8 := rfl

/-- Indices 0 to 7 of a buffer with a frame written over it are the frame. -/
theorem memRead_buildFrame_of_lt (m : Memory) (sa : Byte) (ra : Half) {j : Nat} (h : j < 8) :
    memRead (memWriteAll m 0 (buildFrame sa ra)) j = (buildFrame sa ra)[j]? := by
  rw [memRead_memWriteAll, buildFrame_length, if_pos (by omega), Nat.sub_zero]

theorem memRead_buildFrame_of_le (m : Memory) (sa : Byte) (ra : Half) {j : Nat} (h : 8 ≤ j) :
    memRead (memWriteAll m 0 (buildFrame sa ra)) j = memRead m j := by
  rw [memRead_memWriteAll, buildFrame_length, if_neg (by omega)]

/-! ### The two commands -/

theorem exec_encBuild (sa : Byte) (ra : Half) (s : State) :
    exec (.encBuild sa ra) s =
      .next ((s.setTx true (memWriteAll s.txBuf 0 (buildFrame sa ra))).setCrc (computeCrc (buildBody sa ra))) := rfl

theorem exec_txDiscard (s : State) : exec .txDiscard s = .next (s.setTx false memNone) := rfl

/-! ### The statements -/

/-- Settles O20: the buffer is the old one with the frame written over its first eight indices, so it reads there as the
frame does and elsewhere as before. -/
theorem encBuildWritesTheFrame : Obligations.EncBuildWritesTheFrame := by
  unfold Obligations.EncBuildWritesTheFrame
  intro s sa ra
  rw [← buildBody_eq]
  have hread : ∀ j, j < 8 → memRead (memWriteAll s.txBuf 0 (buildFrame sa ra)) j = (buildFrame sa ra)[j]? :=
    fun _ => memRead_buildFrame_of_lt s.txBuf sa ra
  rw [buildFrame_eq] at hread
  refine ⟨_, exec_encBuild sa ra s, hread 0 ?_, hread 1 ?_, hread 2 ?_, hread 3 ?_, hread 4 ?_, hread 5 ?_, hread 6 ?_,
    hread 7 ?_, fun _ => memRead_buildFrame_of_le s.txBuf sa ra⟩
  all_goals decide

/-- Settles O23: the command's exact next state, whose buffer is `memNone`, and the decoder's row for opcode 0x4, whatever
the data field. -/
theorem txDiscardEmptiesTheBuffer : Obligations.TxDiscardEmptiesTheBuffer := by
  unfold Obligations.TxDiscardEmptiesTheBuffer
  intro s
  refine ⟨memNone, exec_txDiscard s, memRead_memNone, ?_⟩
  intro data rest hr hp
  rw [step_instr hr (nextWord_of_port hp) (decode_mkWord_txDiscard data), taken_of_port hp, exec_txDiscard]
  rfl

end Sys2Proof.Machine
end

section
/-! PROOFS of the statements about the response parser and the scaling multiplier (42_response_parser.md R135 to R140,
R145). First the RX commands' exact next states, the frame DEC.DECODE reads, and Scale case by case; then the statements
from these lemmas. -/

namespace Sys2Proof.Machine

/-! ### The commands that load the frame -/

theorem exec_rxClear (s : State) : exec .rxClear s = .next ((s.setRx false 0 memNone).setOvf false).dropResults := rfl

theorem exec_rxOpen (s : State) : exec .rxOpen s = .next ((s.setRx true 0 memNone).setOvf false).dropResults := rfl

theorem exec_rxPush_of_lt {s : State} (h : s.rxLen < s.rxCap) (b : Byte) :
    exec (.rxPush b) s = .next (s.setRx true (s.rxLen + 1) (memWrite s.rxBuf s.rxLen b)).dropResults := by
  rw [exec, execRxPush, if_pos h]

theorem exec_rxPush_of_le {s : State} (h : s.rxCap ≤ s.rxLen) (b : Byte) :
    exec (.rxPush b) s = .next (s.setOvf true).dropResults := by
  rw [exec, execRxPush, if_neg (Nat.not_lt.mpr h)]

/-- Whether there is room or not, RX.PUSH ends by dropping the results. -/
theorem exec_rxPush_dropResults (s : State) (b : Byte) : ∃ u : State, exec (.rxPush b) s = .next u.dropResults := by
  rcases Nat.lt_or_ge s.rxLen s.rxCap with h | h
  · exact ⟨_, exec_rxPush_of_lt h b⟩
  · exact ⟨_, exec_rxPush_of_le h b⟩

/-- What each command does to the frame and the results: it leaves the frame as it was, or it drops both results (R145). -/
theorem exec_frame_or_dropResults {i : Instr} {s t : State} (h : exec i s = .next t) :
    (t.rxPresent = s.rxPresent ∧ t.rxLen = s.rxLen ∧ t.rxBuf = s.rxBuf) ∨ ∃ u : State, t = u.dropResults := by
  cases i with
  | rxClear => cases h; exact .inr ⟨_, rfl⟩
  | rxOpen => cases h; exact .inr ⟨_, rfl⟩
  | rxPush b =>
    obtain ⟨u, hu⟩ := exec_rxPush_dropResults s b
    cases hu.symm.trans h
    exact .inr ⟨u, rfl⟩
  | crcInit | crcUpdate | encBuild | txDiscard | decDecode | decValidate => cases h; exact .inl ⟨rfl, rfl, rfl⟩

@[simp] theorem dropResults_measValid (s : State) : s.dropResults.measValid = false := rfl

@[simp] theorem dropResults_vsValid (s : State) : s.dropResults.vsValid = false := rfl

/-! ### The frame as DEC.DECODE reads it -/

theorem byteAt_congr {f g : List Byte} {i : Nat} (h : f[i]? = g[i]?) : byteAt f i = byteAt g i := by
  rw [byteAt, byteAt, List.getD_eq_getElem?_getD, List.getD_eq_getElem?_getD, h]

theorem rxFrame_of_present {s : State} (h : s.rxPresent = true) : s.rxFrame = some s.rxBytes := by
  rw [State.rxFrame, if_pos h]

theorem rxBytes_eq_of_rxFrame {s : State} {f : List Byte} (h : s.rxFrame = some f) :
    s.rxPresent = true ∧ s.rxBytes = f := by
  simpa [State.rxFrame] using h

/-- Where RXBUF holds a value, the frame shows that value and no free byte. -/
theorem byteAt_rxBytes_of_memRead {s : State} {i : Nat} {b : Byte} (hi : i < s.rxLen) (h : memRead s.rxBuf i = some b) :
    byteAt s.rxBytes i = b := by
  rw [byteAt_rxBytes s i hi, State.rxByte, h, Option.getD_some]

theorem exec_decDecode (sf : F64) (s : State) :
    exec (.decDecode sf) s = .next (s.setMeas (decodeFrame s.rxFrame sf (freeNaNWord s.draws))).nextDraw := rfl

/-- The absent result of DEC.DECODE: no frame, or one of less than 5 bytes (R138). -/
theorem decodeFrame_rxFrame_eq_none {s : State} (h : s.rxPresent = false ∨ s.rxLen < 5) (sf nan : F64) :
    decodeFrame s.rxFrame sf nan = none := by
  rw [decodeFrame_eq_none]
  intro f hf
  obtain ⟨hpresent, rfl⟩ := rxBytes_eq_of_rxFrame hf
  rw [rxBytes_length]
  exact h.resolve_left (by simp [hpresent])

theorem decodeFrame_rxFrame_of_long {s : State} {hi lo : Byte} (hpresent : s.rxPresent = true) (hlen : 5 ≤ s.rxLen)
    (hhi : memRead s.rxBuf 3 = some hi) (hlo : memRead s.rxBuf 4 = some lo) (sf nan : F64) :
    decodeFrame s.rxFrame sf nan = some { raw := hi ++ lo, scaled := scale (hi ++ lo) sf nan } := by
  rw [rxFrame_of_present hpresent, decodeFrame_of_long (by rwa [rxBytes_length]),
    byteAt_rxBytes_of_memRead (by omega) hhi, byteAt_rxBytes_of_memRead (by omega) hlo, joinBytes]

/-! ### Scale, one lemma per case of R139 -/

theorem scale_of_isNaN {sf : F64} (h : f64IsNaN sf = true) (raw : Half) (nan : F64) : scale raw sf nan = nan := by
  rw [scale, if_pos h]

theorem f64IsNaN_of_isInf {sf : F64} (h : f64IsInf sf = true) : f64IsNaN sf = false := by
  simp_all [f64IsInf, f64IsNaN]

theorem f64IsNaN_of_isFinite {sf : F64} (h : f64IsFinite sf = true) : f64IsNaN sf = false := by
  simp_all [f64IsFinite, f64IsNaN]

theorem f64IsInf_of_isFinite {sf : F64} (h : f64IsFinite sf = true) : f64IsInf sf = false := by
  simp_all [f64IsFinite, f64IsInf]

theorem scale_of_isInf {sf : F64} (h : f64IsInf sf = true) (raw : Half) (nan : F64) :
    scale raw sf nan = if raw = 0 then nan else sf := by
  rw [scale, f64IsNaN_of_isInf h, if_neg Bool.false_ne_true, if_pos h]

theorem scale_of_isFinite {sf : F64} (h : f64IsFinite sf = true) (raw : Half) (nan : F64) :
    scale raw sf nan = f64Sign sf ++ roundMag ((f64Mag sf).mulNat raw.toNat) := by
  rw [scale, f64IsNaN_of_isFinite h, f64IsInf_of_isFinite h, if_neg Bool.false_ne_true, if_neg Bool.false_ne_true]

@[simp] theorem f64Mag_den (w : F64) : (f64Mag w).den = 1 := by
  rw [f64Mag]
  split <;> rfl

/-- The product of `mulNat` is exact. -/
theorem value_mulNat (n : Nat) (q : Ratio) : (q.mulNat n).value = n * q.value := by
  rw [Ratio.value, Ratio.value, Ratio.mulNat, Nat.cast_mul, mul_div_assoc, mul_assoc]

/-! ### The statements -/

/-- Settles O24: the two commands' exact next states, whose buffer is `memNone`. -/
theorem rxClearAndOpenEmptyTheFrame : Obligations.RxClearAndOpenEmptyTheFrame := by
  unfold Obligations.RxClearAndOpenEmptyTheFrame
  intro s
  exact ⟨⟨memNone, exec_rxClear s, memRead_memNone⟩, ⟨memNone, exec_rxOpen s, memRead_memNone⟩⟩

/-- Settles O25: with room the buffer is the old one with the byte written at RX_LEN, so it reads as before elsewhere;
a full buffer is not written. -/
theorem rxPushAppendsOrOverflows : Obligations.RxPushAppendsOrOverflows := by
  unfold Obligations.RxPushAppendsOrOverflows
  intro s b
  constructor
  · intro hroom
    exact ⟨memWrite s.rxBuf s.rxLen b, exec_rxPush_of_lt hroom b, memRead_memWrite_same s.rxBuf s.rxLen b,
      fun _ ha => memRead_memWrite_other s.rxBuf b ha⟩
  · intro hfull
    exact exec_rxPush_of_le hfull.ge b

/-- Settles O27: the RX commands end by dropping the results; a command after which a result stands has not dropped
them, so by `exec_frame_or_dropResults` it left the frame as it was. -/
theorem noResultOutlivesItsFrame : Obligations.NoResultOutlivesItsFrame := by
  unfold Obligations.NoResultOutlivesItsFrame
  constructor
  · rintro s b i (rfl | rfl | rfl)
    · exact ⟨_, exec_rxClear s, dropResults_measValid _, dropResults_vsValid _⟩
    · exact ⟨_, exec_rxOpen s, dropResults_measValid _, dropResults_vsValid _⟩
    · obtain ⟨u, hu⟩ := exec_rxPush_dropResults s b
      exact ⟨_, hu, dropResults_measValid _, dropResults_vsValid _⟩
  · intro i s t hexec hresult
    rcases exec_frame_or_dropResults hexec with hframe | ⟨u, rfl⟩
    · exact hframe
    · simp at hresult

/-- Settles O28: the absent result by the length, the Measurement by the two bytes read, which are all that it is made of. -/
theorem decodeFrameLooksAtTwoBytes : Obligations.DecodeFrameLooksAtTwoBytes := by
  unfold Obligations.DecodeFrameLooksAtTwoBytes
  intro sf nan
  refine ⟨rfl, ?short, ?long, ?agree⟩
  case short =>
    intro f hf
    rw [decodeFrame_eq_none]
    rintro _ ⟨⟩
    exact hf
  case long =>
    intro b0 b1 b2 hi lo rest
    exact decodeFrame_of_long (by simp [Config.minRespLen]) sf nan
  case agree =>
    intro f g hf hg h3 h4
    rw [decodeFrame_of_long hf, decodeFrame_of_long hg, byteAt_congr h3, byteAt_congr h4]

/-- Settles O29: the command's exact next state, with the result of `decodeFrame` on the frame in RXBUF; the NaN word is
the free one of this draw. -/
theorem decDecodeMeasuresOffsetsThreeAndFour : Obligations.DecDecodeMeasuresOffsetsThreeAndFour := by
  unfold Obligations.DecDecodeMeasuresOffsetsThreeAndFour
  intro s sf
  constructor
  · intro habsent
    refine ⟨s.draws + 1, ?_⟩
    rw [exec_decDecode, decodeFrame_rxFrame_eq_none habsent]
    rfl
  · intro hi lo hpresent hlen hhi hlo
    refine ⟨freeNaNWord s.draws, s.draws + 1, f64IsNaN_nanOf _, ?_⟩
    rw [exec_decDecode, decodeFrame_rxFrame_of_long hpresent hlen hhi hlo]
    rfl

/-- Settles O31: Scale's three cases; the word of a finite factor is its sign bit before 63 bits rounded from the exact
product of `raw` and Mag of the factor. -/
theorem scaleBySignAndRoundedProduct : Obligations.ScaleBySignAndRoundedProduct := by
  unfold Obligations.ScaleBySignAndRoundedProduct
  intro raw sf nan
  refine ⟨fun hnan => scale_of_isNaN hnan raw nan, fun hinf => scale_of_isInf hinf raw nan, fun hfinite => ?_⟩
  rw [scale_of_isFinite hfinite]
  have hden : ((f64Mag sf).mulNat raw.toNat).den ≠ 0 := by simp [Ratio.mulNat]
  exact ⟨append_high _ _, _, hden, value_mulNat _ _, append_low _ _⟩

end Sys2Proof.Machine
end

section
/-! PROOFS of the statements about strict frame validation (43_frame_validation.md R160, R161). First the bits of a checked
VSTAT, then what ValidateFrame, the CRC left behind and the frame in RXBUF are in each case of R160, said once; then the
statements from these lemmas. -/

namespace Sys2Proof.Machine

/-! ### ValidateFrame, one lemma per case of R160 -/

theorem byteAt_of_getElem? {f : List Byte} {i : Nat} {b : Byte} (h : f[i]? = some b) : byteAt f i = b := by
  rw [byteAt, List.getD_eq_getElem?_getD, h, Option.getD_some]

/-- VSTAT after the content checks, bit by bit: REJECT collects the four content checks and not the length (R27). -/
theorem vstatChecked_bits (addr bc fc crc len : Bool) :
    (vstatChecked addr bc fc crc len).getLsbD 0 = false ∧ (vstatChecked addr bc fc crc len).getLsbD 1 = false ∧
    (vstatChecked addr bc fc crc len).getLsbD 2 = len ∧ (vstatChecked addr bc fc crc len).getLsbD 3 = crc ∧
    (vstatChecked addr bc fc crc len).getLsbD 4 = fc ∧ (vstatChecked addr bc fc crc len).getLsbD 5 = bc ∧
    (vstatChecked addr bc fc crc len).getLsbD 6 = addr ∧
    (vstatChecked addr bc fc crc len).getLsbD 7 = (crc || fc || bc || addr) :=
  flagWord_bits (crc || fc || bc || addr) addr bc fc crc len false false

theorem validateFrame_none (ea : Byte) : validateFrame none ea = 0x81 :=
  show vstatNoFrame = 0x81 by decide

theorem validateFrame_of_short {f : List Byte} (h : f.length < 5) (ea : Byte) : validateFrame (some f) ea = 0x82 :=
  (if_pos h).trans (show vstatTooShort = 0x82 by decide)

theorem validateFrame_of_long {f : List Byte} (h : 5 ≤ f.length) (ea : Byte) :
    validateFrame (some f) ea =
      vstatChecked (byteAt f 0 != ea) (byteAt f 2 != 0x02) (byteAt f 1 != 0x03)
        (recomputedCrc f != transmittedCrc f) (f.length != 7) := if_neg (Nat.not_lt.mpr h)

/-- The last byte of a frame is the high one of the CRC it carries (R56, R160). -/
theorem transmittedCrc_of_getElem? {f : List Byte} {lo hi : Byte} (hlo : f[f.length - 2]? = some lo)
    (hhi : f[f.length - 1]? = some hi) : transmittedCrc f = hi ++ lo := by
  rw [transmittedCrc, byteAt_of_getElem? hlo, byteAt_of_getElem? hhi, joinBytes]

/-! ### CRC_ACC after DEC.VALIDATE, and the frame it validates -/

@[simp] theorem crcAfterValidate_none (old : Half) : crcAfterValidate none old = old := rfl

theorem crcAfterValidate_of_short {f : List Byte} (h : f.length < 5) (old : Half) :
    crcAfterValidate (some f) old = old := if_pos h

theorem crcAfterValidate_of_long {f : List Byte} (h : 5 ≤ f.length) (old : Half) :
    crcAfterValidate (some f) old = computeCrc (f.take (f.length - 2)) := if_neg (Nat.not_lt.mpr h)

theorem rxFrame_of_absent {s : State} (h : s.rxPresent = false) : s.rxFrame = none := by
  rw [State.rxFrame, h, if_neg Bool.false_ne_true]

/-- A list that RXBUF holds at every index below RX_LEN is the frame: no free byte shows (R25). -/
theorem rxBytes_eq_of_memRead {s : State} {f : List Byte} (hlen : f.length = s.rxLen)
    (hread : ∀ a, a < s.rxLen → memRead s.rxBuf a = f[a]?) : s.rxBytes = f := by
  apply List.ext_getElem (by rw [rxBytes_length, hlen])
  intro i hs hf
  have hbyte : memRead s.rxBuf i = some f[i] := by rw [hread i (hlen ▸ hf), List.getElem?_eq_getElem hf]
  simp only [State.rxBytes, List.getElem_map, List.getElem_range, State.rxByte, hbyte, Option.getD_some]

theorem exec_decValidate (ea : Byte) (s : State) :
    exec (.decValidate ea) s =
      .next ((s.setVstat (some (validateFrame s.rxFrame ea))).setCrc (crcAfterValidate s.rxFrame s.crcAcc)).nextDraw := rfl

/-! ### The statements -/

/-- Settles O37: the words of the two frames that are not checked, and the bits of a checked VSTAT, each the outcome of its
own check on the bytes named. -/
theorem validateFrameBits : Obligations.ValidateFrameBits := by
  unfold Obligations.ValidateFrameBits
  intro ea
  refine ⟨validateFrame_none ea, fun f hshort => validateFrame_of_short hshort ea, ?_⟩
  intro f b0 b1 b2 lo hi hlong h0 h1 h2 hlo hhi
  have hchecked : validateFrame (some f) ea =
      vstatChecked (b0 != ea) (b2 != 0x02) (b1 != 0x03) (computeCrc (f.take (f.length - 2)) != hi ++ lo)
        (f.length != 7) := by
    rw [validateFrame_of_long hlong, byteAt_of_getElem? h0, byteAt_of_getElem? h1, byteAt_of_getElem? h2,
      transmittedCrc_of_getElem? hlo hhi, recomputedCrc]
  obtain ⟨hbit0, hbit1, hlen, hcrc, hfc, hbc, haddr, hreject⟩ := vstatChecked_bits (b0 != ea) (b2 != 0x02) (b1 != 0x03)
    (computeCrc (f.take (f.length - 2)) != hi ++ lo) (f.length != 7)
  simp only [hchecked, hbit0, hbit1, hlen, hcrc, hfc, hbc, haddr, hreject, Bool.or_eq_true, bne_iff_ne, or_assoc, true_and,
    iff_self]

/-- Settles O38: the command's exact next state, with VSTAT and CRC_ACC of the frame in RXBUF in each case of R160. -/
theorem decValidateReportsTheFrame : Obligations.DecValidateReportsTheFrame := by
  unfold Obligations.DecValidateReportsTheFrame
  intro s ea
  refine ⟨?absent, ?short, ?long⟩
  case absent =>
    intro habsent
    refine ⟨s.draws + 1, ?_⟩
    rw [exec_decValidate, rxFrame_of_absent habsent, validateFrame_none, crcAfterValidate_none]
    rfl
  case short =>
    intro hpresent hlen
    have hshort : s.rxBytes.length < 5 := by rwa [rxBytes_length]
    refine ⟨s.draws + 1, ?_⟩
    rw [exec_decValidate, rxFrame_of_present hpresent, validateFrame_of_short hshort, crcAfterValidate_of_short hshort]
    rfl
  case long =>
    intro f hpresent hlen hf hread
    have hlong : 5 ≤ f.length := hf ▸ hlen
    refine ⟨s.draws + 1, ?_⟩
    rw [exec_decValidate, rxFrame_of_present hpresent, rxBytes_eq_of_memRead hf hread, crcAfterValidate_of_long hlong]
    rfl

end Sys2Proof.Machine
end

section
/-! PROOFS of the statements about the words of commands (30_encoding.md R70 to R76): the decoder reads back what the
encoder writes, the encoder writes back every canonical word, and the line ENC.BUILD as a number. First what the parts of a
word put together are; then the statements from these lemmas. -/

namespace Sys2Proof

/-! ### Words put together from their parts -/

/-- A data field whose bits above the low `w` are 0 is those low bits after zeros. -/
theorem zero_append_extractLsb' {n w : Nat} {d : BitVec (n + w)} (h : d.extractLsb' w n = 0) :
    (0 : BitVec n) ++ d.extractLsb' 0 w = d := by
  rw [← h, BitVec.extractLsb'_append_extractLsb'_eq_extractLsb' (by omega), BitVec.extractLsb'_eq_self]

/-- The same for the two fields of format R (R71). -/
theorem zero_append_two_extractLsb' {d : BitVec 64} (h : d.extractLsb' 24 40 = 0) :
    (0 : BitVec 40) ++ d.extractLsb' 16 8 ++ d.extractLsb' 0 16 = d := by
  rw [← h, BitVec.extractLsb'_append_extractLsb'_eq_extractLsb' (by omega),
    BitVec.extractLsb'_append_extractLsb'_eq_extractLsb' (by omega), BitVec.extractLsb'_eq_self]

/-- Joining words joins their numbers, the first above the second. -/
theorem toNat_append_eq_mul_add {n w : Nat} (a : BitVec n) (b : BitVec w) :
    (a ++ b).toNat = a.toNat * 2 ^ w + b.toNat := by
  rw [BitVec.toNat_append, ← Nat.shiftLeft_add_eq_or_of_lt b.isLt, Nat.shiftLeft_eq]

/-- The middle field of format R, `data[23:16]` (R71). -/
theorem extractLsb'_middle {n : Nat} (a : BitVec n) (sa : Byte) (ra : Half) :
    (a ++ sa ++ ra).extractLsb' 16 8 = sa := by
  apply BitVec.eq_of_getLsbD_eq
  intro i hi
  simp only [BitVec.getLsbD_extractLsb', BitVec.getLsbD_append]
  simp [hi, show 16 + i - 16 = i by omega]

/-! ### The encoder's words, decoded -/

theorem decode_encode (i : Instr) : decode (encode i) = .ok i := by
  cases i with
  | crcInit => exact decode_mkWord_crcInit _
  | crcUpdate b => exact (decode_mkWord_crcUpdate _).trans (by rw [dataOf, Machine.append_low])
  | encBuild sa ra =>
    exact (decode_mkWord_encBuild _).trans (by rw [dataOf, extractLsb'_middle, Machine.append_low])
  | txDiscard => exact decode_mkWord_txDiscard _
  | rxClear => exact decode_mkWord_rxClear _
  | rxOpen => exact decode_mkWord_rxOpen _
  | rxPush b => exact (decode_mkWord_rxPush _).trans (by rw [dataOf, Machine.append_low])
  | decDecode sf => exact decode_mkWord_decDecode _
  | decValidate ea => exact (decode_mkWord_decValidate _).trans (by rw [dataOf, Machine.append_low])

/-- A number of 68 bits or more holds a command word whole. -/
theorem cmdWordOfNat_toNat {nbits : Nat} (h : 68 ≤ nbits) (cw : CmdWord) : cmdWordOfNat nbits cw.toNat = cw := by
  have hlt : cw.toNat < 2 ^ nbits := cw.isLt.trans_le (Nat.pow_le_pow_right (by decide) h)
  rw [cmdWordOfNat, Nat.mod_eq_of_lt hlt, BitVec.ofNat_toNat, BitVec.setWidth_eq]

theorem decodeTableWord_encode {nbits : Nat} (h : 68 ≤ nbits) (i : Instr) :
    decodeTableWord nbits (encode i).toNat = some i := by
  rw [decodeTableWord, cmdWordOfNat_toNat h, decode_encode]

/-- The word of ENC.BUILD as a number (R70, R71, R73). -/
theorem encode_encBuild_toNat (sa : Byte) (ra : Half) :
    (encode (.encBuild sa ra)).toNat = 3 * 2 ^ 64 + sa.toNat * 2 ^ 16 + ra.toNat := by
  rw [encode, mkWord, toNat_append_eq_mul_add, dataOf, toNat_append_eq_mul_add, toNat_append_eq_mul_add, opcodeOf]
  simp
  ring

/-! ### Canonical words -/

/-- What a canonical word can be: the opcode of a command, with the data bits that its format does not use 0 (R71, U10). -/
theorem canonical_mkWord_cases {op : BitVec 4} {d : BitVec 64} (h : CmdWord.Canonical (mkWord op d) = true) :
    ((op = 0x1 ∨ op = 0x4 ∨ op = 0x5 ∨ op = 0x6) ∧ d = 0) ∨
    ((op = 0x2 ∨ op = 0x7 ∨ op = 0x9) ∧ d.extractLsb' 8 56 = 0) ∨
    (op = 0x3 ∧ d.extractLsb' 24 40 = 0) ∨ op = 0x8 := by
  have hop : (mkWord op d).extractLsb' 64 4 = op := opcode_mkWord op d
  have hd : (mkWord op d).extractLsb' 0 64 = d := dataField_mkWord op d
  simp only [CmdWord.Canonical, hop, hd] at h
  split at h
  next h1 => exact .inl ⟨.inl (BitVec.eq_of_toNat_eq h1), eq_of_beq h⟩
  next h4 => exact .inl ⟨.inr (.inl (BitVec.eq_of_toNat_eq h4)), eq_of_beq h⟩
  next h5 => exact .inl ⟨.inr (.inr (.inl (BitVec.eq_of_toNat_eq h5))), eq_of_beq h⟩
  next h6 => exact .inl ⟨.inr (.inr (.inr (BitVec.eq_of_toNat_eq h6))), eq_of_beq h⟩
  next h2 => exact .inr (.inl ⟨.inl (BitVec.eq_of_toNat_eq h2), eq_of_beq h⟩)
  next h7 => exact .inr (.inl ⟨.inr (.inl (BitVec.eq_of_toNat_eq h7)), eq_of_beq h⟩)
  next h9 => exact .inr (.inl ⟨.inr (.inr (BitVec.eq_of_toNat_eq h9)), eq_of_beq h⟩)
  next h3 => exact .inr (.inr (.inl ⟨BitVec.eq_of_toNat_eq h3, eq_of_beq h⟩))
  next h8 => exact .inr (.inr (.inr (BitVec.eq_of_toNat_eq h8)))
  next => cases h

/-- A canonical word is the encoder's word of the command its opcode and fields name. -/
theorem exists_encode_of_canonical {op : BitVec 4} {d : BitVec 64} (h : CmdWord.Canonical (mkWord op d) = true) :
    ∃ i, encode i = mkWord op d := by
  obtain ⟨rfl | rfl | rfl | rfl, rfl⟩ | ⟨rfl | rfl | rfl, hd⟩ | ⟨rfl, hd⟩ | rfl := canonical_mkWord_cases h
  · exact ⟨.crcInit, rfl⟩
  · exact ⟨.txDiscard, rfl⟩
  · exact ⟨.rxClear, rfl⟩
  · exact ⟨.rxOpen, rfl⟩
  · exact ⟨.crcUpdate _, congrArg (mkWord 0x2) (zero_append_extractLsb' hd)⟩
  · exact ⟨.rxPush _, congrArg (mkWord 0x7) (zero_append_extractLsb' hd)⟩
  · exact ⟨.decValidate _, congrArg (mkWord 0x9) (zero_append_extractLsb' hd)⟩
  · exact ⟨.encBuild _ _, congrArg (mkWord 0x3) (zero_append_two_extractLsb' hd)⟩
  · exact ⟨.decDecode d, rfl⟩

/-! ### The statements -/

/-- Settles O12: the fields of a command's word are its operands, and a number of 68 bits or more holds the word whole. -/
theorem decodeInvertsEncode : Obligations.DecodeInvertsEncode := by
  unfold Obligations.DecodeInvertsEncode
  intro i _
  exact ⟨decode_encode i, decodeTableWord_encode (by decide) i, decodeTableWord_encode (by decide) i⟩

/-- Settles O13: a canonical word is some command's word, which decodes to that command. -/
theorem encodeInvertsDecode : Obligations.EncodeInvertsDecode := by
  unfold Obligations.EncodeInvertsDecode
  intro cw hcw
  obtain ⟨i, hi⟩ := exists_encode_of_canonical ((mkWord_opcode_dataField cw).symm ▸ hcw)
  rw [mkWord_opcode_dataField] at hi
  exact ⟨i, hi ▸ decode_encode i, hi⟩

/-- Settles O14: the line is one ENC.BUILD with its integers masked to their fields, which keeps those that fit whole. -/
theorem encBuildLineAssembles : Obligations.EncBuildLineAssembles := by
  unfold Obligations.EncBuildLineAssembles
  intro sa ra
  have hnum := encode_encBuild_toNat (Machine.maskByte sa) (Machine.maskHalf ra)
  rw [Machine.maskByte, Machine.maskHalf, BitVec.toNat_ofNat, BitVec.toNat_ofNat] at hnum
  refine ⟨_, rfl, hnum, fun hfits => ?_⟩
  simp only [Machine.AsmLine.WellFormed, operandFits, Bool.and_eq_true, decide_eq_true_eq] at hfits
  obtain ⟨hsa, hra⟩ := hfits
  rwa [Nat.mod_eq_of_lt hsa, Nat.mod_eq_of_lt hra] at hnum

/-- Settles O10: each word decodes by evaluation. -/
theorem wordsOfTheOpcodeMapDecode : Obligations.WordsOfTheOpcodeMapDecode := by
  unfold Obligations.WordsOfTheOpcodeMapDecode
  decide

end Sys2Proof
end

section
/-! PROOFS of the statements about commands and steps in general (10_state.md R28, 30_encoding.md R70,
45_laws_control_access.md R247, 60_exceptions.md R200, R206, 70_reset_and_hazards.md R220). What a command leaves alone and
that it completes; the step, by the event it takes; what a step does to the block, in four cases; then the statements. -/

namespace Sys2Proof.Machine

/-! ### Commands -/

/-- Every command answers a next state (R200), and what no command has to do with stays: RX_CAP, ILL_CMD, the ports, the
other agent. -/
theorem exists_exec_next (i : Instr) (s : State) : ∃ t, exec i s = .next t ∧
    t.rxCap = s.rxCap ∧ t.resetSeen = s.resetSeen ∧ t.port = s.port ∧ t.host = s.host ∧ t.illCmd = s.illCmd ∧
    (t.draws = s.draws ∨ t.draws = s.draws + 1) := by
  cases i with
  | rxPush b =>
    rcases Nat.lt_or_ge s.rxLen s.rxCap with hroom | hfull
    · exact ⟨_, exec_rxPush_of_lt hroom b, rfl, rfl, rfl, rfl, rfl, .inl rfl⟩
    · exact ⟨_, exec_rxPush_of_le hfull b, rfl, rfl, rfl, rfl, rfl, .inl rfl⟩
  | decDecode sf => exact ⟨_, exec_decDecode sf s, rfl, rfl, rfl, rfl, rfl, .inr rfl⟩
  | decValidate ea => exact ⟨_, exec_decValidate ea s, rfl, rfl, rfl, rfl, rfl, .inr rfl⟩
  | crcInit | crcUpdate | encBuild | txDiscard | rxClear | rxOpen => exact ⟨_, rfl, rfl, rfl, rfl, rfl, rfl, .inl rfl⟩

section
variable {i : Instr} {s t : State}

theorem exec_rxCap (h : exec i s = .next t) : t.rxCap = s.rxCap := by
  obtain ⟨u, hu, hcap, -⟩ := exists_exec_next i s
  cases h.symm.trans hu
  exact hcap

theorem exec_resetSeen (h : exec i s = .next t) : t.resetSeen = s.resetSeen := by
  obtain ⟨u, hu, -, hreset, -⟩ := exists_exec_next i s
  cases h.symm.trans hu
  exact hreset

theorem exec_port (h : exec i s = .next t) : t.port = s.port := by
  obtain ⟨u, hu, -, -, hport, -⟩ := exists_exec_next i s
  cases h.symm.trans hu
  exact hport

theorem exec_host (h : exec i s = .next t) : t.host = s.host := by
  obtain ⟨u, hu, -, -, -, hhost, -⟩ := exists_exec_next i s
  cases h.symm.trans hu
  exact hhost

theorem exec_illCmd (h : exec i s = .next t) : t.illCmd = s.illCmd := by
  obtain ⟨u, hu, -, -, -, -, hill, -⟩ := exists_exec_next i s
  cases h.symm.trans hu
  exact hill

end

/-- RX.PUSH, inverted: there was room for the byte, or there was none. -/
theorem exec_rxPush_cases {b : Byte} {s t : State} (h : exec (.rxPush b) s = .next t) :
    (s.rxLen < s.rxCap ∧ t = (s.setRx true (s.rxLen + 1) (memWrite s.rxBuf s.rxLen b)).dropResults) ∨
    (s.rxCap ≤ s.rxLen ∧ t = (s.setOvf true).dropResults) := by
  rcases Nat.lt_or_ge s.rxLen s.rxCap with hroom | hfull
  · cases h.symm.trans (exec_rxPush_of_lt hroom b)
    exact .inl ⟨hroom, rfl⟩
  · cases h.symm.trans (exec_rxPush_of_le hfull b)
    exact .inr ⟨hfull, rfl⟩

theorem decode_of_decodeTableWord {nbits w : Nat} {i : Instr} (h : decodeTableWord nbits w = some i) :
    decode (cmdWordOfNat nbits w) = .ok i := by
  unfold decodeTableWord at h
  split at h
  next hd => rw [hd, Option.some.inj h]
  next => cases h

/-! ### A step, by the event that comes first -/

/-- `rst` dominates whatever is presented with it (R220). -/
theorem step_reset {s : State} {v : Bool} {cw : CmdWord} {rest : List PortEvent} (hp : s.port = .pins true v cw :: rest) :
    step s = .next (resetBlock (s.setPort rest)) := by
  simp only [step, hp, portStep, pinsStep, if_true]

theorem step_noCommand {s : State} {cw : CmdWord} {rest : List PortEvent} (hp : s.port = .pins false false cw :: rest) :
    step s = .next (s.setPort rest) := by
  simp only [step, hp, portStep, pinsStep, Bool.false_eq_true, if_false]

/-- Before the first reset the presented word is refused, wherever it comes from (U8). -/
theorem step_word_beforeReset {s : State} {cw : CmdWord} (hr : s.resetSeen = false) (h : s.nextWord = some cw) :
    step s = .refused .beforeReset := by
  have hturn : ∀ u : State, u.resetSeen = false → u.host.queue.head? = some cw →
      sequencerTurn u = .refused .beforeReset := by
    intro u hu hq
    obtain ⟨q, hq⟩ : ∃ q, u.host.queue = cw :: q := ⟨_, List.eq_cons_of_mem_head? hq⟩
    simp [sequencerTurn, hq, pinsStep, hu]
  unfold State.nextWord at h
  split at h
  next hp => simp [step, hp, portStep, pinsStep, hr]
  next => cases h
  next => cases h
  next => cases h
  next rest hp => exact (step_turn (.inl hp)).trans (hturn (s.setPort rest) hr h)
  next hp => exact (step_turn (.inr ⟨hp, rfl⟩)).trans (hturn (s.setPort []) hr h)

theorem step_read_beforeReset {s : State} {sel : BitVec 4} {rest : List PortEvent} (hr : s.resetSeen = false)
    (hp : s.port = .read sel :: rest) : step s = .refused .beforeReset := by
  simp [step, hp, portStep, readStep, hr]

/-- On the sequencer's turn the word at the head of its queue is presented. -/
theorem nextWord_of_turn {s : State} {cw : CmdWord} {q : List CmdWord} {rest : List PortEvent}
    (hp : s.port = .idle :: rest ∨ s.port = [] ∧ rest = []) (hq : s.host.queue = cw :: q) : s.nextWord = some cw := by
  rcases hp with hp | ⟨hp, -⟩ <;> simp [State.nextWord, hp, hq]

theorem taken_of_turn {s : State} {cw : CmdWord} {q : List CmdWord} {rest : List PortEvent}
    (hp : s.port = .idle :: rest ∨ s.port = [] ∧ rest = []) (hq : s.host.queue = cw :: q) :
    s.taken = (s.setPort rest).setHost { s.host with queue := q } := by
  rcases hp with hp | ⟨hp, rfl⟩
  · simp [State.taken, hp, State.dequeue, hq]
  · have hs : s.setPort [] = s := by rw [← hp]; rfl
    simp [State.taken, hp, State.dequeue, hq, hs]

/-- The word presented after a reset, whatever it is, has its effect, and on the block alone. -/
theorem exists_step_word {s : State} {cw : CmdWord} (hr : s.resetSeen = true) (h : s.nextWord = some cw) :
    ∃ t, step s = .next t ∧ t.port = s.taken.port ∧ t.host = s.taken.host := by
  cases hd : decode cw with
  | ok i =>
    obtain ⟨t, ht, -, -, hport, hhost, -⟩ := exists_exec_next i s.taken
    exact ⟨t, (step_instr hr h hd).trans ht, hport, hhost⟩
  | error err =>
    cases err
    exact ⟨_, step_reserved hr h hd, rfl, rfl⟩

/-- A sample at the ports leaves the other agent alone, and after a reset it always has its effect. -/
theorem exists_step_pins {s : State} {rst v : Bool} {cw : CmdWord} {rest : List PortEvent} (hr : s.resetSeen = true)
    (hp : s.port = .pins rst v cw :: rest) : ∃ t, step s = .next t ∧ t.port = rest ∧ t.host = s.host := by
  cases rst with
  | true => exact ⟨_, step_reset hp, rfl, rfl⟩
  | false =>
    cases v with
    | false => exact ⟨_, step_noCommand hp, rfl, rfl⟩
    | true =>
      obtain ⟨t, ht, hport, hhost⟩ := exists_step_word hr (nextWord_of_port hp)
      rw [taken_of_port hp] at hport hhost
      exact ⟨t, ht, hport, hhost⟩

/-- After a reset every step answers a next state (R200, R232). -/
theorem exists_step {s : State} (hr : s.resetSeen = true) : ∃ t, step s = .next t := by
  have turn : ∀ rest, (s.port = .idle :: rest ∨ s.port = [] ∧ rest = []) → ∃ t, step s = .next t := by
    intro rest hp
    cases hq : s.host.queue with
    | nil => exact ⟨_, step_host hp hq⟩
    | cons cw q =>
      obtain ⟨t, ht, -⟩ := exists_step_word hr (nextWord_of_turn hp hq)
      exact ⟨t, ht⟩
  cases hp : s.port with
  | nil => exact turn [] (.inr ⟨hp, rfl⟩)
  | cons ev rest =>
    cases ev with
    | pins rst v cw =>
      obtain ⟨t, ht, -⟩ := exists_step_pins hr hp
      exact ⟨t, ht⟩
    | read sel => exact ⟨_, step_read hr hp⟩
    | idle => exact turn rest (.inl hp)

/-! ### What a step does to the block -/

section
variable {s u : State} (h : s.SameBlock u)
include h

theorem State.SameBlock.crcAcc : u.crcAcc = s.crcAcc := by rw [h]
theorem State.SameBlock.txValid : u.txValid = s.txValid := by rw [h]
theorem State.SameBlock.txBuf : u.txBuf = s.txBuf := by rw [h]
theorem State.SameBlock.rxPresent : u.rxPresent = s.rxPresent := by rw [h]
theorem State.SameBlock.rxLen : u.rxLen = s.rxLen := by rw [h]
theorem State.SameBlock.rxBuf : u.rxBuf = s.rxBuf := by rw [h]
theorem State.SameBlock.rxOvf : u.rxOvf = s.rxOvf := by rw [h]
theorem State.SameBlock.meas : u.meas = s.meas := by rw [h]
theorem State.SameBlock.vstat : u.vstat = s.vstat := by rw [h]
theorem State.SameBlock.measValid : u.measValid = s.measValid := by rw [State.measValid, h.meas, State.measValid]
theorem State.SameBlock.vsValid : u.vsValid = s.vsValid := by rw [State.vsValid, h.vstat, State.vsValid]
theorem State.SameBlock.illCmd : u.illCmd = s.illCmd := by rw [h]
theorem State.SameBlock.rxCap : u.rxCap = s.rxCap := by rw [h]
theorem State.SameBlock.resetSeen : u.resetSeen = s.resetSeen := by rw [h]

end

theorem hostStep_sameBlock (s : State) (rest : List PortEvent) : s.SameBlock (hostStep (s.setPort rest)) := by
  rw [hostStep_frame]
  rfl

/-- What a step that answers a next state does to the block: a reset, a command, a reserved opcode, or nothing. -/
theorem step_block_cases {s t : State} (h : step s = .next t) :
    (∃ v cw rest, s.port = .pins true v cw :: rest ∧ t = resetBlock (s.setPort rest)) ∨
    (∃ cw i, s.nextWord = some cw ∧ decode cw = .ok i ∧ exec i s.taken = .next t) ∨
    (∃ cw op, s.nextWord = some cw ∧ decode cw = .error (.reservedOpcode op) ∧ t = reservedOpcode s.taken) ∨
    s.SameBlock t := by
  rcases step_cases h with hreset | ⟨cw, rest, -, rfl⟩ | ⟨cw, i, hw, -, hd, he⟩ | ⟨cw, op, hw, -, hd, rfl⟩ |
    ⟨sel, rest, -, -, rfl⟩ | ⟨rest, -, -, rfl⟩
  · exact .inl hreset
  · exact .inr (.inr (.inr rfl))
  · exact .inr (.inl ⟨cw, i, hw, hd, he⟩)
  · exact .inr (.inr (.inl ⟨cw, op, hw, hd, rfl⟩))
  · exact .inr (.inr (.inr rfl))
  · exact .inr (.inr (.inr (hostStep_sameBlock s rest)))

theorem step_rxCap {s t : State} (h : step s = .next t) : t.rxCap = s.rxCap := by
  rcases step_block_cases h with ⟨_, _, _, _, rfl⟩ | ⟨_, _, _, _, he⟩ | ⟨_, _, _, _, rfl⟩ | hsame
  · rfl
  · rw [exec_rxCap he, (taken_sameBlock s).rxCap]
  · exact (taken_sameBlock s).rxCap
  · exact hsame.rxCap

/-- The reset stays applied (R220). -/
theorem step_resetSeen {s t : State} (h : step s = .next t) (hr : s.resetSeen = true) : t.resetSeen = true := by
  rcases step_block_cases h with ⟨_, _, _, _, rfl⟩ | ⟨_, _, _, _, he⟩ | ⟨_, _, _, _, rfl⟩ | hsame
  · rfl
  · rw [exec_resetSeen he, taken_resetSeen, hr]
  · exact (taken_resetSeen s).trans hr
  · rw [hsame.resetSeen, hr]

/-- A host with no invocation left and no exchange going on does nothing. -/
theorem hostStep_of_nothing_to_do {s : State} (hinv : s.host.invocations = [])
    (hdone : ∀ e, s.host.exchange = some e → ∃ o, e.phase = .done o) : hostStep s = s := by
  rcases hostStep_cases s with hs | ⟨inv, rest, hcons, -⟩ | ⟨e, he, hne, -⟩
  · exact hs
  · rw [hinv] at hcons
    cases hcons
  · obtain ⟨o, ho⟩ := hdone e he
    exact absurd ho (hne o)

/-! ### What each command can write -/

/-- A present frame of 5 bytes or more always decodes (R138). -/
theorem isSome_decodeFrame_rxFrame {s : State} (hpresent : s.rxPresent = true) (hlen : 5 ≤ s.rxLen) (sf nan : F64) :
    (decodeFrame s.rxFrame sf nan).isSome = true := by
  rw [rxFrame_of_present hpresent, decodeFrame_of_long (by rwa [rxBytes_length]), Option.isSome_some]

/-- DEC.VALIDATE leaves CRC_ACC alone where the frame is absent or has less than 5 bytes (R161). -/
theorem crcAfterValidate_rxFrame_of_short {s : State} (h : s.rxPresent = false ∨ s.rxLen < 5) (old : Half) :
    crcAfterValidate s.rxFrame old = old := by
  cases hpresent : s.rxPresent with
  | false => rw [rxFrame_of_absent hpresent, crcAfterValidate_none]
  | true =>
    have hshort : s.rxBytes.length < 5 := by rw [rxBytes_length]; exact h.resolve_left (by simp [hpresent])
    rw [rxFrame_of_present hpresent, crcAfterValidate_of_short hshort]

section
variable {i : Instr} {s t : State} (h : exec i s = .next t)
include h

theorem exec_crcAcc_eq_or :
    t.crcAcc = s.crcAcc ∨ i = .crcInit ∨ (∃ b, i = .crcUpdate b) ∨ (∃ sa ra, i = .encBuild sa ra) ∨
    ∃ ea, i = .decValidate ea ∧ s.rxPresent = true ∧ 5 ≤ s.rxLen := by
  cases i with
  | crcInit => exact .inr (.inl rfl)
  | crcUpdate b => exact .inr (.inr (.inl ⟨b, rfl⟩))
  | encBuild sa ra => exact .inr (.inr (.inr (.inl ⟨sa, ra, rfl⟩)))
  | decValidate ea =>
    cases h
    by_cases hlong : s.rxPresent = true ∧ 5 ≤ s.rxLen
    · exact .inr (.inr (.inr (.inr ⟨ea, rfl, hlong⟩)))
    · refine .inl (crcAfterValidate_rxFrame_of_short ?_ s.crcAcc)
      rwa [not_and_or, Bool.not_eq_true, not_le] at hlong
  | rxPush b => rcases exec_rxPush_cases h with ⟨-, rfl⟩ | ⟨-, rfl⟩ <;> exact .inl rfl
  | txDiscard | rxClear | rxOpen | decDecode => cases h; exact .inl rfl

theorem exec_tx_eq_or :
    (t.txValid = s.txValid ∧ t.txBuf = s.txBuf) ∨ (∃ sa ra, i = .encBuild sa ra) ∨ i = .txDiscard := by
  cases i with
  | encBuild sa ra => exact .inr (.inl ⟨sa, ra, rfl⟩)
  | txDiscard => exact .inr (.inr rfl)
  | rxPush b => rcases exec_rxPush_cases h with ⟨-, rfl⟩ | ⟨-, rfl⟩ <;> exact .inl ⟨rfl, rfl⟩
  | crcInit | crcUpdate | rxClear | rxOpen | decDecode | decValidate => cases h; exact .inl ⟨rfl, rfl⟩

theorem exec_rx_eq_or :
    (t.rxPresent = s.rxPresent ∧ t.rxLen = s.rxLen ∧ t.rxBuf = s.rxBuf ∧ t.rxOvf = s.rxOvf) ∨
    i = .rxClear ∨ i = .rxOpen ∨ ∃ b, i = .rxPush b := by
  cases i with
  | rxClear => exact .inr (.inl rfl)
  | rxOpen => exact .inr (.inr (.inl rfl))
  | rxPush b => exact .inr (.inr (.inr ⟨b, rfl⟩))
  | crcInit | crcUpdate | encBuild | txDiscard | decDecode | decValidate => cases h; exact .inl ⟨rfl, rfl, rfl, rfl⟩

theorem exec_meas_eq_or :
    t.meas = s.meas ∨ i = .rxClear ∨ i = .rxOpen ∨ (∃ b, i = .rxPush b) ∨ ∃ sf, i = .decDecode sf := by
  cases i with
  | rxClear => exact .inr (.inl rfl)
  | rxOpen => exact .inr (.inr (.inl rfl))
  | rxPush b => exact .inr (.inr (.inr (.inl ⟨b, rfl⟩)))
  | decDecode sf => exact .inr (.inr (.inr (.inr ⟨sf, rfl⟩)))
  | crcInit | crcUpdate | encBuild | txDiscard | decValidate => cases h; exact .inl rfl

theorem exec_vstat_eq_or :
    t.vstat = s.vstat ∨ i = .rxClear ∨ i = .rxOpen ∨ (∃ b, i = .rxPush b) ∨ ∃ ea, i = .decValidate ea := by
  cases i with
  | rxClear => exact .inr (.inl rfl)
  | rxOpen => exact .inr (.inr (.inl rfl))
  | rxPush b => exact .inr (.inr (.inr (.inl ⟨b, rfl⟩)))
  | decValidate ea => exact .inr (.inr (.inr (.inr ⟨ea, rfl⟩)))
  | crcInit | crcUpdate | encBuild | txDiscard | decDecode => cases h; exact .inl rfl

/-! ### Which command clears a flag -/

theorem eq_txDiscard_of_clears_txValid (hs : s.txValid = true) (ht : t.txValid = false) : i = .txDiscard := by
  rcases exec_tx_eq_or h with ⟨heq, -⟩ | ⟨sa, ra, rfl⟩ | hi
  · rw [heq, hs] at ht
    cases ht
  · cases h
    cases ht
  · exact hi

theorem eq_rxClear_of_clears_rxPresent (hs : s.rxPresent = true) (ht : t.rxPresent = false) : i = .rxClear := by
  rcases exec_rx_eq_or h with ⟨heq, -⟩ | hi | rfl | ⟨b, rfl⟩
  · rw [heq, hs] at ht
    cases ht
  · exact hi
  · cases h
    cases ht
  · rcases exec_rxPush_cases h with ⟨-, rfl⟩ | ⟨-, rfl⟩
    · cases ht
    · cases hs.symm.trans ht

theorem eq_rxClear_or_rxOpen_of_clears_rxOvf (hs : s.rxOvf = true) (ht : t.rxOvf = false) :
    i = .rxClear ∨ i = .rxOpen := by
  rcases exec_rx_eq_or h with ⟨-, -, -, heq⟩ | hi | hi | ⟨b, rfl⟩
  · rw [heq, hs] at ht
    cases ht
  · exact .inl hi
  · exact .inr hi
  · rcases exec_rxPush_cases h with ⟨-, rfl⟩ | ⟨-, rfl⟩
    · cases hs.symm.trans ht
    · cases ht

theorem measValid_cleared_cases (hs : s.measValid = true) (ht : t.measValid = false) :
    i = .rxClear ∨ i = .rxOpen ∨ (∃ b, i = .rxPush b) ∨
    ∃ sf, i = .decDecode sf ∧ (s.rxPresent = false ∨ s.rxLen < 5) := by
  rcases exec_meas_eq_or h with heq | hi | hi | hi | ⟨sf, rfl⟩
  · rw [State.measValid, heq, ← State.measValid, hs] at ht
    cases ht
  · exact .inl hi
  · exact .inr (.inl hi)
  · exact .inr (.inr (.inl hi))
  · refine .inr (.inr (.inr ⟨sf, rfl, ?_⟩))
    cases h
    by_contra hlong
    simp only [not_or, Bool.not_eq_false, not_lt] at hlong
    obtain ⟨hpresent, hlen⟩ := hlong
    rw [State.measValid, State.nextDraw_meas, State.setMeas_meas, isSome_decodeFrame_rxFrame hpresent hlen] at ht
    cases ht

theorem vsValid_cleared_cases (hs : s.vsValid = true) (ht : t.vsValid = false) :
    i = .rxClear ∨ i = .rxOpen ∨ ∃ b, i = .rxPush b := by
  rcases exec_vstat_eq_or h with heq | hi | hi | hi | ⟨ea, rfl⟩
  · rw [State.vsValid, heq, ← State.vsValid, hs] at ht
    cases ht
  · exact .inl hi
  · exact .inr (.inl hi)
  · exact .inr (.inr hi)
  · cases h
    cases ht

end

/-- A flag of the block other than ILL_CMD changes on a step by a reset or by a command. -/
theorem step_flag_change {s t : State} {flag : State → Bool} (h : step s = .next t)
    (hsame : ∀ u, s.SameBlock u → flag u = flag s) (hill : ∀ u, flag (reservedOpcode u) = flag u)
    (hchange : flag t ≠ flag s) :
    (∃ v cw rest, s.port = .pins true v cw :: rest) ∨
    ∃ i, (∃ cw, s.nextWord = some cw ∧ decode cw = .ok i) ∧ exec i s.taken = .next t := by
  rcases step_block_cases h with ⟨v, cw, rest, hp, -⟩ | ⟨cw, i, hw, hd, he⟩ | ⟨_, _, -, -, rfl⟩ | hblock
  · exact .inl ⟨v, cw, rest, hp⟩
  · exact .inr ⟨i, ⟨cw, hw, hd⟩, he⟩
  · exact absurd ((hill s.taken).trans (hsame _ (taken_sameBlock s))) hchange
  · exact absurd (hsame t hblock) hchange

/-! ### The statements -/

/-- Settles O7: the nine commands one by one. -/
theorem everyCommandCompletes : Obligations.EveryCommandCompletes := exists_exec_next

/-- Settles O8: a step of each kind has its effect after a reset, and none undoes the reset or changes RX_CAP. -/
theorem everyStepAfterResetCompletes : Obligations.EveryStepAfterResetCompletes := by
  unfold Obligations.EveryStepAfterResetCompletes
  intro s hr
  obtain ⟨t, ht⟩ := exists_step hr
  exact ⟨t, ht, step_resetSeen ht hr, step_rxCap ht⟩

/-- Settles O9: the host's own step leaves the block alone, and with nothing to do for the host it is no change at all. -/
theorem hostStepLeavesTheBlock : Obligations.HostStepLeavesTheBlock := by
  unfold Obligations.HostStepLeavesTheBlock
  intro s rest hp hq
  have hsame := hostStep_sameBlock s rest
  have hport : (hostStep (s.setPort rest)).port = rest := by rw [hostStep_frame]; rfl
  exact ⟨_, step_host hp hq, hport, hsame.crcAcc, hsame.txValid, hsame.txBuf, hsame.rxPresent, hsame.rxLen, hsame.rxBuf,
    hsame.rxOvf, hsame.meas, hsame.vstat, hsame.illCmd,
    fun hinv hdone => hostStep_of_nothing_to_do (s := s.setPort rest) hinv hdone⟩

/-- Settles O48: for each register the commands that write it. -/
theorem commandsWriteOnlyTheirRow : Obligations.CommandsWriteOnlyTheirRow := by
  unfold Obligations.CommandsWriteOnlyTheirRow
  intro i s t h
  refine ⟨(exec_crcAcc_eq_or h).resolve_left, ?tx, ?rx, (exec_meas_eq_or h).resolve_left,
    (exec_vstat_eq_or h).resolve_left, exec_illCmd h⟩
  case tx =>
    intro hchange
    refine (exec_tx_eq_or h).resolve_left fun ⟨hvalid, hbuf⟩ => ?_
    simp [hvalid, hbuf] at hchange
  case rx =>
    intro hchange
    refine (exec_rx_eq_or h).resolve_left fun ⟨hpresent, hlen, hbuf, hovf⟩ => ?_
    simp [hpresent, hlen, hbuf, hovf] at hchange

/-- Settles O46: of the four things a step can do to the block only a reset and a reserved opcode write ILL_CMD. -/
theorem illCmdIsStickyUntilReset : Obligations.IllCmdIsStickyUntilReset := by
  unfold Obligations.IllCmdIsStickyUntilReset
  intro s t h hchange
  rcases step_block_cases h with ⟨v, cw, rest, hp, rfl⟩ | ⟨cw, i, -, -, he⟩ | ⟨cw, op, hw, hd, rfl⟩ | hsame
  · exact .inl ⟨v, cw, rest, hp, rfl⟩
  · exact absurd ((exec_illCmd he).trans (taken_sameBlock s).illCmd) hchange
  · exact .inr ⟨cw, op, hw, hd, rfl⟩
  · exact absurd hsame.illCmd hchange

/-- Settles O47: a flag that a step clears was cleared by a reset or by a command, and then by one that clears it. -/
theorem flagsAreClearedInNoOtherWay : Obligations.FlagsAreClearedInNoOtherWay := by
  unfold Obligations.FlagsAreClearedInNoOtherWay
  intro s t h
  have htaken := taken_sameBlock s
  refine ⟨?txValid, ?rxPresent, ?rxOvf, ?measValid, ?vsValid⟩
  case txValid =>
    intro hs ht
    refine (step_flag_change h (fun u hu => hu.txValid) (fun _ => rfl) (by simp [hs, ht])).imp_right ?_
    rintro ⟨i, hissue, he⟩
    exact eq_txDiscard_of_clears_txValid he (htaken.txValid.trans hs) ht ▸ hissue
  case rxPresent =>
    intro hs ht
    refine (step_flag_change h (fun u hu => hu.rxPresent) (fun _ => rfl) (by simp [hs, ht])).imp_right ?_
    rintro ⟨i, hissue, he⟩
    exact eq_rxClear_of_clears_rxPresent he (htaken.rxPresent.trans hs) ht ▸ hissue
  case rxOvf =>
    intro hs ht
    refine (step_flag_change h (fun u hu => hu.rxOvf) (fun _ => rfl) (by simp [hs, ht])).imp_right ?_
    rintro ⟨i, hissue, he⟩
    rcases eq_rxClear_or_rxOpen_of_clears_rxOvf he (htaken.rxOvf.trans hs) ht with rfl | rfl
    · exact .inl hissue
    · exact .inr hissue
  case measValid =>
    intro hs ht
    refine (step_flag_change h (fun u hu => hu.measValid) (fun _ => rfl) (by simp [hs, ht])).imp_right ?_
    rintro ⟨i, hissue, he⟩
    rcases measValid_cleared_cases he (htaken.measValid.trans hs) ht with rfl | rfl | ⟨b, rfl⟩ | ⟨sf, rfl, hshort⟩
    · exact .inl hissue
    · exact .inr (.inl hissue)
    · exact .inr (.inr (.inl ⟨b, hissue⟩))
    · rw [htaken.rxPresent, htaken.rxLen] at hshort
      exact .inr (.inr (.inr ⟨sf, hissue, hshort⟩))
  case vsValid =>
    intro hs ht
    refine (step_flag_change h (fun u hu => hu.vsValid) (fun _ => rfl) (by simp [hs, ht])).imp_right ?_
    rintro ⟨i, hissue, he⟩
    rcases vsValid_cleared_cases he (htaken.vsValid.trans hs) ht with rfl | rfl | ⟨b, rfl⟩
    · exact .inl hissue
    · exact .inr (.inl hissue)
    · exact .inr (.inr ⟨b, hissue⟩)

/-- Settles O2: the reset block is the table of R35 with the fields that are not the block's kept. -/
theorem resetInputDominatesTheCommand : Obligations.ResetInputDominatesTheCommand := by
  unfold Obligations.ResetInputDominatesTheCommand
  intro s valid cw rest hp
  rw [step_reset hp]
  rfl

/-- Settles O3: the word presented, or the read, is refused. -/
theorem noCommandBeforeTheFirstReset : Obligations.NoCommandBeforeTheFirstReset := by
  unfold Obligations.NoCommandBeforeTheFirstReset
  intro s hr
  exact ⟨fun _ hw => step_word_beforeReset hr hw, fun _ _ hp => step_read_beforeReset hr hp⟩

/-- Settles O4: a sample without reset and command only uses up the event. -/
theorem invalidWordChangesNothing : Obligations.InvalidWordChangesNothing := by
  unfold Obligations.InvalidWordChangesNothing
  intro s cw rest hp
  exact step_noCommand hp

/-- Settles O5: the word presented is issued on the taken state, wherever it was taken from. -/
theorem stepRunsTheDecodedCommand : Obligations.StepRunsTheDecodedCommand := by
  unfold Obligations.StepRunsTheDecodedCommand
  intro s i
  refine ⟨?port, ?queue, ?table⟩
  case port =>
    intro cw rest hr hp hd
    rw [step_instr hr (nextWord_of_port hp) hd, taken_of_port hp, State.setPort]
  case queue =>
    intro cw q rest hr hp hq hd
    rw [step_instr hr (nextWord_of_turn hp hq) hd, taken_of_turn hp hq]
    rfl
  case table =>
    intro nbits w htable
    have hd := decode_of_decodeTableWord htable
    have hp : (s.withFetchWord nbits w).port = cmdEvent (cmdWordOfNat nbits w) :: s.port := rfl
    rw [step_instr rfl (nextWord_of_port hp) hd, taken_of_port hp]
    rfl

/-- Settles O54: a sample and a read do not touch the exchange, and an `idle` event is the sequencer's turn. -/
theorem portEventsFallBetweenExchangeSteps : Obligations.PortEventsFallBetweenExchangeSteps := by
  unfold Obligations.PortEventsFallBetweenExchangeSteps
  intro s rest hr
  refine ⟨?pins, ?read, fun hp => step_turn (.inl hp)⟩
  case pins =>
    intro rst v cw hp
    obtain ⟨t, ht, hport, hhost⟩ := exists_step_pins hr hp
    refine ⟨t, ht, hport, hhost, ?_⟩
    rintro rfl rfl i hd
    rw [← ht, step_instr hr (nextWord_of_port hp) hd, taken_of_port hp, State.setPort]
  case read =>
    intro sel hp
    exact ⟨_, step_read hr hp, rfl, rfl, rfl, rfl⟩

end Sys2Proof.Machine
end

section
/-! PROOFS of the statements about the block's invariant (10_state.md R33, 20_memory.md R59, 42_response_parser.md R144).
First what the invariant says of the frame; then one lemma per operation on the state that keeps it, from which every
command keeps it; then the statements. -/

namespace Sys2Proof.Machine

/-! ### The frame under the invariant -/

/-- Where RXBUF holds a value exactly below RX_LEN, the frame is a matter of the receive registers alone: which free values
come next does not show. -/
theorem rxFrame_congr {s t : State} (h : Memory.indices s.rxBuf = List.range s.rxLen) (hpresent : t.rxPresent = s.rxPresent)
    (hlen : t.rxLen = s.rxLen) (hbuf : t.rxBuf = s.rxBuf) : t.rxFrame = s.rxFrame := by
  rw [rxFrame_of_indices h, rxFrame_of_indices (hbuf ▸ hlen ▸ h), hpresent, hbuf]

/-- The frame's bytes are values that RXBUF holds. -/
theorem memRead_rxBuf_of_lt {s : State} (h : Memory.indices s.rxBuf = List.range s.rxLen) {i : Nat} (hi : i < s.rxLen) :
    memRead s.rxBuf i = some (byteAt s.rxBytes i) := by
  have hlt : i < (s.rxBuf.map Prod.snd).length := by rwa [List.length_map, length_of_indices_range h]
  rw [memRead_of_indices_range h, rxBytes_of_indices h, byteAt, List.getD_eq_getElem?_getD, List.getElem?_eq_getElem hlt,
    Option.getD_some]

/-- A push into RXBUF adds the index RX_LEN (R137). -/
theorem indices_memWrite_rxLen {s : State} (h : Memory.indices s.rxBuf = List.range s.rxLen) (b : Byte) :
    Memory.indices (memWrite s.rxBuf s.rxLen b) = List.range (s.rxLen + 1) := by
  rw [memWrite_at_len h, Memory.indices, List.map_append, show s.rxBuf.map Prod.fst = List.range s.rxLen from h,
    List.range_succ]
  rfl

/-- A Measurement is made of a present frame of 5 bytes or more (R138). -/
theorem decodeFrame_eq_some {rx : Option (List Byte)} {sf nan : F64} {m : Measurement} (h : decodeFrame rx sf nan = some m) :
    ∃ f, rx = some f ∧ 5 ≤ f.length ∧ m.raw = joinBytes (byteAt f 3) (byteAt f 4) := by
  have hlong : ¬ ∀ f, rx = some f → f.length < 5 := by rw [← decodeFrame_eq_none rx sf nan, h]; simp
  push Not at hlong
  obtain ⟨f, rfl, hf⟩ := hlong
  rw [decodeFrame_of_long hf] at h
  cases h
  exact ⟨f, rfl, hf, rfl⟩

/-! ### Operations that keep the invariant -/

theorem Inv.of_sameBlock {s u : State} (hs : Inv s) (h : s.SameBlock u) : Inv u where
  txIndices := by rw [h.txBuf, h.txValid]; exact hs.txIndices
  rxIndices := by rw [h.rxBuf, h.rxLen]; exact hs.rxIndices
  absentEmpty := by rw [h.rxPresent, h.rxLen]; exact hs.absentEmpty
  lenBound := by rw [h.rxLen, h.rxCap]; exact hs.lenBound
  capBound := by rw [h.rxCap]; exact hs.capBound
  measOfFrame := by rw [h.meas, h.rxPresent, h.rxLen, h.rxBuf]; exact hs.measOfFrame
  vstatOfFrame := by
    rw [h.vstat, rxFrame_congr hs.rxIndices h.rxPresent h.rxLen h.rxBuf]
    exact hs.vstatOfFrame
  txFrame := by rw [h.txValid, h.txBuf]; exact hs.txFrame

section
variable {s : State} (hs : Inv s)
include hs

theorem Inv.nextDraw : Inv s.nextDraw := hs.of_sameBlock rfl

theorem Inv.setCrc (v : Half) : Inv (s.setCrc v) := { hs with }

theorem Inv.setIll (b : Bool) : Inv (s.setIll b) := { hs with }

theorem Inv.setOvf (b : Bool) : Inv (s.setOvf b) := { hs with }

theorem Inv.setMeas {m : Option Measurement} (hm : ∀ x, m = some x → s.rxPresent = true ∧ 5 ≤ s.rxLen ∧
    memRead s.rxBuf 3 = some (highByte x.raw) ∧ memRead s.rxBuf 4 = some (lowByte x.raw)) : Inv (s.setMeas m) :=
  { hs with measOfFrame := hm }

theorem Inv.setVstat {v : Option Byte} (hv : ∀ x, v = some x → ∃ ea, x = validateFrame s.rxFrame ea) :
    Inv (s.setVstat v) :=
  { hs with vstatOfFrame := hv }

/-- TX.DISCARD's write: no frame, and no value at any index of TXBUF. -/
theorem Inv.setTx_memNone : Inv (s.setTx false memNone) :=
  { hs with txIndices := rfl, txFrame := fun h => by cases h }

/-- The dropped results claim nothing of the frame any more, so it may be any one in RXBUF (R145). -/
theorem Inv.setRx_dropResults {present : Bool} {len : Nat} {buf : Memory} (hbuf : Memory.indices buf = List.range len)
    (hpresent : present = false → len = 0) (hlen : len ≤ s.rxCap) : Inv (s.setRx present len buf).dropResults :=
  { hs with
    rxIndices := hbuf, absentEmpty := hpresent, lenBound := hlen,
    measOfFrame := fun _ h => by cases h
    vstatOfFrame := fun _ h => by cases h }

end

/-! ### The frame in TXBUF -/

/-- A buffer's cell below the indices written stays at its head. -/
theorem memWriteAll_cons {x i : Nat} (h : x < i) (y : Byte) (m : Memory) (vs : List Byte) :
    memWriteAll ((x, y) :: m) i vs = (x, y) :: memWriteAll m i vs := by
  induction vs generalizing m i with
  | nil => rfl
  | cons v vs ih => rw [memWriteAll, memWriteAll, memWrite, if_neg h.not_gt, if_neg h.ne', ih (h.trans i.lt_succ_self)]

/-- Written over at most as many bytes as it has, a sequence is what the buffer then lists. -/
theorem memWriteAll_of_indices_range' {m : Memory} {i n : Nat} {vs : List Byte} (h : Memory.indices m = List.range' i n)
    (hn : n ≤ vs.length) : memWriteAll m i vs = (List.range' i vs.length).zip vs := by
  induction vs generalizing m i n with
  | nil =>
    obtain rfl : n = 0 := Nat.le_zero.mp hn
    rw [List.map_eq_nil_iff.mp h]
    rfl
  | cons v vs ih =>
    rw [memWriteAll, List.length_cons, List.range'_succ, List.zip_cons_cons]
    cases n with
    | zero =>
      rw [List.map_eq_nil_iff.mp h, memWrite, memWriteAll_cons i.lt_succ_self, ih (n := 0) rfl (Nat.zero_le _)]
    | succ n =>
      obtain ⟨⟨x, y⟩, m, rfl, rfl, hm⟩ := List.map_eq_cons_iff.mp (h.trans List.range'_succ)
      rw [memWrite, if_neg (lt_irrefl _), if_pos rfl, memWriteAll_cons (Nat.lt_succ_self _),
        ih hm (Nat.le_of_succ_le_succ hn)]

/-- ENC.BUILD's write: the frame, and nothing beside it (R122, R33 (e)). -/
theorem Inv.setTx_buildFrame {s : State} (hs : Inv s) (sa : Byte) (ra : Half) :
    Inv (s.setTx true (memWriteAll s.txBuf 0 (buildFrame sa ra))) := by
  obtain ⟨n, hn, hindices⟩ : ∃ n, n ≤ 8 ∧ Memory.indices s.txBuf = List.range' 0 n := by
    have h := hs.txIndices
    split at h
    · exact ⟨8, le_rfl, h⟩
    · exact ⟨0, Nat.zero_le 8, h⟩
  have hbuf : memWriteAll s.txBuf 0 (buildFrame sa ra) = (List.range' 0 8).zip (buildFrame sa ra) :=
    memWriteAll_of_indices_range' hindices hn
  rw [hbuf]
  exact { hs with txIndices := rfl, txFrame := fun _ => ⟨sa, ra, rfl⟩ }

/-! ### Commands, resets and steps -/

/-- What DEC.DECODE writes is R33 (c)'s Measurement. -/
theorem Inv.decodeFrame_ofFrame {s : State} (hs : Inv s) {sf nan : F64} {m : Measurement}
    (h : decodeFrame s.rxFrame sf nan = some m) : s.rxPresent = true ∧ 5 ≤ s.rxLen ∧
      memRead s.rxBuf 3 = some (highByte m.raw) ∧ memRead s.rxBuf 4 = some (lowByte m.raw) := by
  obtain ⟨f, hf, hlen, hraw⟩ := decodeFrame_eq_some h
  obtain ⟨hpresent, rfl⟩ := rxBytes_eq_of_rxFrame hf
  rw [rxBytes_length] at hlen
  rw [hraw, highByte_joinBytes, lowByte_joinBytes]
  exact ⟨hpresent, hlen, memRead_rxBuf_of_lt hs.rxIndices (by omega), memRead_rxBuf_of_lt hs.rxIndices (by omega)⟩

theorem exec_keeps_inv {i : Instr} {s t : State} (hs : Inv s) (h : exec i s = .next t) : Inv t := by
  cases i with
  | crcInit => cases h; exact hs.setCrc _
  | crcUpdate b => cases h; exact hs.setCrc _
  | encBuild sa ra => cases h; exact (hs.setTx_buildFrame sa ra).setCrc _
  | txDiscard => cases h; exact hs.setTx_memNone
  | rxClear => cases h; exact (hs.setOvf false).setRx_dropResults rfl (fun _ => rfl) (Nat.zero_le _)
  | rxOpen => cases h; exact (hs.setOvf false).setRx_dropResults rfl (fun _ => rfl) (Nat.zero_le _)
  | rxPush b =>
    rcases exec_rxPush_cases h with ⟨hroom, rfl⟩ | ⟨-, rfl⟩
    · exact hs.setRx_dropResults (indices_memWrite_rxLen hs.rxIndices b) (fun hp => by cases hp) hroom
    · exact (hs.setOvf true).setRx_dropResults hs.rxIndices hs.absentEmpty hs.lenBound
  | decDecode sf => cases h; exact (hs.setMeas fun _ hm => hs.decodeFrame_ofFrame hm).nextDraw
  | decValidate ea =>
    cases h
    refine ((hs.setVstat fun x hx => ⟨ea, ?_⟩).setCrc _).nextDraw
    exact (Option.some.inj hx).symm

/-- Every claim of the invariant is about a frame, a result or a buffer, and a reset leaves none. -/
theorem inv_resetBlock {s : State} (hcap : 7 ≤ s.rxCap) : Inv (resetBlock s) where
  txIndices := rfl
  rxIndices := rfl
  absentEmpty := fun _ => rfl
  lenBound := Nat.zero_le _
  capBound := hcap
  measOfFrame := fun _ h => by cases h
  vstatOfFrame := fun _ h => by cases h
  txFrame := fun h => by cases h

theorem step_keeps_inv {s t : State} (hs : Inv s) (h : step s = .next t) : Inv t := by
  have htaken := hs.of_sameBlock (taken_sameBlock s)
  rcases step_block_cases h with ⟨_, _, rest, _, rfl⟩ | ⟨_, i, _, _, he⟩ | ⟨_, _, _, _, rfl⟩ | hsame
  · exact inv_resetBlock (s := s.setPort rest) hs.capBound
  · exact exec_keeps_inv htaken he
  · exact htaken.setIll true
  · exact hs.of_sameBlock hsame

/-! ### Decoding with two free NaN words -/

/-- Two uses of DecodeFrame with NaN words of their own give the same result, or the same raw value with a NaN each
(R139). -/
theorem decodeFrame_nan_cases (rx : Option (List Byte)) (sf : F64) {n n' : F64} (hn : f64IsNaN n = true)
    (hn' : f64IsNaN n' = true) : decodeFrame rx sf n' = decodeFrame rx sf n ∨
      ∃ raw x y, decodeFrame rx sf n = some ⟨raw, x⟩ ∧ decodeFrame rx sf n' = some ⟨raw, y⟩ ∧
        f64IsNaN x = true ∧ f64IsNaN y = true := by
  by_cases hshort : ∀ f, rx = some f → f.length < 5
  · left
    rw [(decodeFrame_eq_none rx sf n).mpr hshort, (decodeFrame_eq_none rx sf n').mpr hshort]
  · push Not at hshort
    obtain ⟨f, rfl, hlong⟩ := hshort
    rw [decodeFrame_of_long hlong, decodeFrame_of_long hlong]
    rcases scale_cases (joinBytes (byteAt f 3) (byteAt f 4)) sf n n' with heq | ⟨hx, hy⟩
    · exact .inl (by rw [heq])
    · rw [hx, hy]
      exact .inr ⟨_, n, n', rfl, rfl, hn, hn'⟩

theorem f64IsNaN_freeNaNWord (d : Nat) : f64IsNaN (freeNaNWord d) = true := f64IsNaN_nanOf _

/-- The raw value of a result does not depend on the NaN word. -/
theorem decodeFrame_map_raw (rx : Option (List Byte)) (sf : F64) (d d' : Nat) :
    (decodeFrame rx sf (freeNaNWord d)).map Measurement.raw = (decodeFrame rx sf (freeNaNWord d')).map Measurement.raw := by
  rcases decodeFrame_nan_cases rx sf (f64IsNaN_freeNaNWord d') (f64IsNaN_freeNaNWord d) with heq | ⟨raw, x, y, hx, hy, -⟩
  · rw [heq]
  · rw [hx, hy]
    rfl

/-! ### The statements -/

/-- Settles O44: of the four things a step can do to the block, a reset empties everything the invariant speaks of, and a
command is made of operations that keep it. -/
theorem everyStepKeepsTheBlockInvariant : Obligations.EveryStepKeepsTheBlockInvariant :=
  fun _ _ hs h => step_keeps_inv hs h

/-- Settles O45: `State.reset` is what a reset leaves of itself. -/
theorem resetEstablishesTheBlockInvariant : Obligations.ResetEstablishesTheBlockInvariant :=
  ⟨inv_resetBlock (s := State.reset) (by decide), fun _ hcap => inv_resetBlock hcap⟩

/-- Settles O49: the frame of a state with the invariant does not depend on the free values to come, and RX.PUSH writes at
RX_LEN, if at all, which is then below RX_CAP. -/
theorem noCommandReadsAnUnwrittenByte : Obligations.NoCommandReadsAnUnwrittenByte := by
  unfold Obligations.NoCommandReadsAnUnwrittenByte
  intro s d hs
  have hframe : State.rxFrame { s with draws := d } = s.rxFrame := rxFrame_congr hs.rxIndices rfl rfl rfl
  refine ⟨?validate, ?decode, ?push⟩
  case validate =>
    rintro ea _ _ ⟨⟩ ⟨⟩
    simp only [State.nextDraw_vstat, State.nextDraw_crcAcc, State.setCrc_vstat, State.setCrc_crcAcc, State.setVstat_vstat,
      hframe, and_self]
  case decode =>
    rintro sf _ _ ⟨⟩ ⟨⟩
    simp only [State.measRaw, State.nextDraw_meas, State.setMeas_meas, hframe]
    exact decodeFrame_map_raw s.rxFrame sf s.draws d
  case push =>
    intro b t a h hchange
    rcases exec_rxPush_cases h with ⟨hroom, rfl⟩ | ⟨-, rfl⟩
    · rw [State.dropResults_rxBuf, State.setRx_rxBuf] at hchange
      by_contra ha
      exact hchange (memRead_memWrite_other s.rxBuf b (by omega))
    · simp at hchange

/-- Settles O30: the second DEC.DECODE reads the same frame, so its result differs at most by the NaN word. -/
theorem decodeIsRepeatable : Obligations.DecodeIsRepeatable := by
  unfold Obligations.DecodeIsRepeatable
  rintro s _ _ sf hs ⟨⟩ ⟨⟩
  have hframe : (s.setMeas (decodeFrame s.rxFrame sf (freeNaNWord s.draws))).nextDraw.rxFrame = s.rxFrame :=
    rxFrame_congr hs.rxIndices rfl rfl rfl
  refine ⟨rfl, ?_⟩
  simp only [State.measValid, State.measRaw, State.measScaled, State.nextDraw_meas, State.setMeas_meas, hframe]
  rcases decodeFrame_nan_cases s.rxFrame sf (f64IsNaN_freeNaNWord s.draws) (f64IsNaN_freeNaNWord (s.draws + 1)) with
    heq | ⟨raw, x, y, hx, hy, hxnan, hynan⟩
  · exact ⟨congrArg Option.isSome heq, congrArg _ heq, .inl (congrArg _ heq)⟩
  · rw [State.nextDraw_draws, State.setMeas_draws, hx, hy]
    exact ⟨rfl, rfl, .inr ⟨x, y, rfl, rfl, hxnan, hynan⟩⟩

end Sys2Proof.Machine
end

section
/-! PROOFS of the statements about whole sequences (40_crc.md R108, R110, 41_request_encoder.md R124, R126, 30_encoding.md
R77, 43_frame_validation.md R165). First commands issued one after another; then the CRC of a sequence with its own, the
request frame in TXBUF, and the response frame that RX.OPEN and RX.PUSH load; then the statements. -/

namespace Sys2Proof.Machine

/-! ### Commands issued one after another -/

theorem execAll_cons {i : Instr} {s t : State} (h : exec i s = .next t) (is : List Instr) :
    execAll (i :: is) s = execAll is t := by
  simp only [execAll, h]

/-- A sequence, inverted: its first command answers, and the rest goes on from there. -/
theorem execAll_cons_eq_next {i : Instr} {is : List Instr} {s t : State} (h : execAll (i :: is) s = .next t) :
    ∃ u, exec i s = .next u ∧ execAll is u = .next t := by
  obtain ⟨u, hu, -⟩ := exists_exec_next i s
  exact ⟨u, hu, (execAll_cons hu is).symm.trans h⟩

/-! ### The CRC of sequences -/

theorem crcFrom_append (a : Half) (u v : List Byte) : crcFrom a (u ++ v) = crcFrom (crcFrom a u) v := by
  induction u generalizing a with
  | nil => rfl
  | cons b u ih => exact ih (crcByte a b)

/-- `CRC.UPDATE`s in a row are `CrcFrom` of their bytes, and change nothing else (R108). -/
theorem execAll_crcUpdate (bs : List Byte) (s : State) :
    execAll (bs.map .crcUpdate) s = .next (s.setCrc (crcFrom s.crcAcc bs)) := by
  induction bs generalizing s with
  | nil => rfl
  | cons b bs ih => rw [List.map_cons, execAll_cons (exec_crcUpdate b s), ih]; rfl

theorem execAll_expandCrcCompute (bs : List Byte) (s : State) :
    execAll (expandCrcCompute bs) s = .next (s.setCrc (computeCrc bs)) := by
  rw [expandCrcCompute, execAll_cons (exec_crcInit s), execAll_crcUpdate]
  rfl

/-- A command that does not start the CRC anew continues it from CRC_ACC with the byte it gives, if any (R23, R247). -/
theorem exec_crcAcc_of_continues {i : Instr} {s t : State} (h : exec i s = .next t)
    (hi : i ≠ .crcInit ∧ (∀ sa ra, i ≠ .encBuild sa ra) ∧ ∀ ea, i ≠ .decValidate ea) :
    t.crcAcc = crcFrom s.crcAcc (updateByte i).toList := by
  obtain ⟨hinit, hbuild, hvalidate⟩ := hi
  by_cases hupdate : ∃ b, i = .crcUpdate b
  · obtain ⟨b, rfl⟩ := hupdate
    cases h
    rfl
  · have hno : updateByte i = none := by
      cases i with
      | crcUpdate b => exact absurd ⟨b, rfl⟩ hupdate
      | _ => rfl
    rw [hno]
    rcases exec_crcAcc_eq_or h with heq | hi | hi | ⟨sa, ra, hi⟩ | ⟨ea, hi, -⟩
    exacts [heq, absurd hi hinit, absurd hi hupdate, absurd hi (hbuild sa ra), absurd hi (hvalidate ea)]

theorem exists_execAll_crcAcc (is : List Instr) (s : State)
    (h : ∀ i ∈ is, i ≠ .crcInit ∧ (∀ sa ra, i ≠ .encBuild sa ra) ∧ ∀ ea, i ≠ .decValidate ea) :
    ∃ t, execAll is s = .next t ∧ t.crcAcc = crcFrom s.crcAcc (updateBytes is) := by
  induction is generalizing s with
  | nil => exact ⟨s, rfl, rfl⟩
  | cons i is ih =>
    obtain ⟨hi, his⟩ := List.forall_mem_cons.mp h
    obtain ⟨u, hu, -⟩ := exists_exec_next i s
    obtain ⟨t, ht, hcrc⟩ := ih u his
    refine ⟨t, (execAll_cons hu is).trans ht, ?_⟩
    rw [hcrc, exec_crcAcc_of_continues hu hi, ← crcFrom_append, updateBytes, updateBytes, List.filterMap_cons]
    cases updateByte i <;> rfl

/-! ### The CRC of a sequence followed by its CRC -/

/-- Bit steps over bits that are 0 only shift (R100). -/
theorem crcShifts_of_low_zero {n : Nat} {x : Half} (h : ∀ k, k < n → x.getLsbD k = false) : crcShifts n x = x >>> n := by
  induction n generalizing x with
  | zero => rfl
  | succ n ih =>
    have hstep : crcShift x = x >>> 1 := by rw [crcShift, h 0 n.succ_pos, if_neg Bool.false_ne_true]
    have hrest : ∀ k, k < n → (x >>> 1).getLsbD k = false := fun k hk => by
      rw [BitVec.getLsbD_ushiftRight]; exact h (1 + k) (by omega)
    rw [crcShifts, hstep, ih hrest, ← BitVec.shiftRight_add, Nat.add_comm]

/-- The low byte of an accumulator, given to it, leaves its high byte in the low place. -/
theorem crcByte_lowByte (c : Half) : crcByte c (lowByte c) = zext16 (highByte c) := by
  have hlow : ∀ k, k < 8 → (c ^^^ zext16 (lowByte c)).getLsbD k = false := by
    intro k hk
    simp [zext16, lowByte, hk, show k < 16 by omega]
  rw [crcByte, crcShifts_of_low_zero hlow]
  apply BitVec.eq_of_getLsbD_eq
  intro i hi
  by_cases h8 : i < 8
  · simp [zext16, lowByte, highByte, hi, h8]
  · simp [zext16, lowByte, highByte, hi, h8, BitVec.getLsbD_of_ge c (8 + i) (by omega)]

theorem joinBytes_zero (b : Byte) : joinBytes 0x00 b = zext16 b := by
  apply BitVec.eq_of_toNat_eq
  rw [joinBytes, toNat_append_eq_mul_add, zext16, BitVec.toNat_setWidth, Nat.mod_eq_of_lt (by omega)]
  exact Nat.zero_add _

theorem crcByte_zext16 (b : Byte) : crcByte (zext16 b) b = 0 := by
  rw [crcByte, BitVec.xor_self]
  decide

/-- R110, for any accumulator. -/
theorem crcFrom_littleEndian (c : Half) : crcFrom c (littleEndian c) = 0 := by
  rw [littleEndian, crcFrom, crcByte_lowByte, crcFrom, crcByte_zext16, crcFrom]

theorem computeCrc_append_littleEndian (s : List Byte) : computeCrc (s ++ littleEndian (computeCrc s)) = 0 := by
  rw [computeCrc, crcFrom_append, ← computeCrc, crcFrom_littleEndian]

/-! ### The request frame in TXBUF -/

/-- After ENC.BUILD the host finds the frame in TXBUF, whatever was there before (R122). -/
theorem txBytes_of_buildFrame {s t : State} {sa : Byte} {ra : Half} (hvalid : t.txValid = true)
    (hbuf : t.txBuf = memWriteAll s.txBuf 0 (buildFrame sa ra)) : t.txBytes = (buildFrame sa ra).map some := by
  have hread : t.txBytes = (List.range 8).map fun i => (buildFrame sa ra)[i]? := by
    refine List.map_congr_left fun i hi => ?_
    rw [txByte_of_txValid hvalid, hbuf, memRead_buildFrame_of_lt _ _ _ (List.mem_range.mp hi)]
  rw [hread, buildFrame_eq]
  rfl

/-! ### The response frame that RX.OPEN and RX.PUSH load -/

/-- The receive registers after an RX.OPEN and one RX.PUSH per byte of `f`: the frame present, the first RX_CAP bytes of `f`
in RXBUF, and RX_OVF set if there were more (R136, R137). -/
structure State.Loaded (s : State) (f : List Byte) : Prop where
  present : s.rxPresent = true
  indices : Memory.indices s.rxBuf = List.range s.rxLen
  bytes : s.rxBuf.map Prod.snd = f.take s.rxCap
  overflow : s.rxOvf = decide (s.rxCap < f.length)

theorem State.Loaded.rxLen_eq {s : State} {f : List Byte} (h : s.Loaded f) : s.rxLen = min s.rxCap f.length := by
  rw [← length_of_indices_range h.indices, ← List.length_map (f := Prod.snd), h.bytes, List.length_take]

theorem State.Loaded.rxFrame_eq {s : State} {f : List Byte} (h : s.Loaded f) : s.rxFrame = some (f.take s.rxCap) := by
  rw [rxFrame_of_present h.present, rxBytes_of_indices h.indices, h.bytes]

theorem exists_exec_rxOpen_loaded (s : State) : ∃ t, exec .rxOpen s = .next t ∧ t.Loaded [] := by
  refine ⟨_, exec_rxOpen s, rfl, rfl, ?_, ?_⟩
  · exact List.take_nil.symm
  · exact (decide_eq_false (Nat.not_lt_zero _)).symm

theorem State.Loaded.rxPush {s t : State} {f : List Byte} {b : Byte} (hs : s.Loaded f) (h : exec (.rxPush b) s = .next t) :
    t.Loaded (f ++ [b]) := by
  have hlen := hs.rxLen_eq
  rcases exec_rxPush_cases h with ⟨hroom, rfl⟩ | ⟨hfull, rfl⟩
  · have hf : f.length < s.rxCap := by omega
    have hf' : (f ++ [b]).length ≤ s.rxCap := by simpa using hf
    refine ⟨rfl, indices_memWrite_rxLen hs.indices b, ?_, ?_⟩
    · rw [State.dropResults_rxBuf, State.setRx_rxBuf, State.dropResults_rxCap, State.setRx_rxCap,
        memWrite_at_len hs.indices, List.map_append, hs.bytes, List.take_of_length_le hf.le, List.take_of_length_le hf']
      rfl
    · rw [State.dropResults_rxOvf, State.setRx_rxOvf, State.dropResults_rxCap, State.setRx_rxCap, hs.overflow,
        decide_eq_false hf.not_gt, decide_eq_false hf'.not_gt]
  · have hf : s.rxCap ≤ f.length := by omega
    refine ⟨hs.present, hs.indices, ?_, ?_⟩
    · exact hs.bytes.trans (List.take_append_of_le_length hf).symm
    · exact (decide_eq_true (by simpa using Nat.lt_succ_of_le hf)).symm

theorem exists_execAll_rxPush (bs : List Byte) {s : State} {f : List Byte} (hs : s.Loaded f) :
    ∃ t, execAll (bs.map .rxPush) s = .next t ∧ t.Loaded (f ++ bs) := by
  induction bs generalizing s f with
  | nil => exact ⟨s, rfl, by rwa [List.append_nil]⟩
  | cons b bs ih =>
    obtain ⟨u, hu, -⟩ := exists_exec_next (.rxPush b) s
    obtain ⟨t, ht, hloaded⟩ := ih (hs.rxPush hu)
    exact ⟨t, (execAll_cons hu _).trans ht, by rwa [← List.append_cons] at hloaded⟩

/-- RX.LOAD, whole: what it loads (R77). -/
theorem exists_execAll_rxLoad (bs : List Byte) (s : State) :
    ∃ t, execAll (.rxOpen :: bs.map .rxPush) s = .next t ∧ t.Loaded bs := by
  obtain ⟨u, hu, hopen⟩ := exists_exec_rxOpen_loaded s
  obtain ⟨t, ht, hloaded⟩ := exists_execAll_rxPush bs hopen
  exact ⟨t, (execAll_cons hu _).trans ht, hloaded⟩

/-- What no command has to do with stays through a sequence too. -/
theorem execAll_keeps {is : List Instr} {s t : State} (h : execAll is s = .next t) :
    t.rxCap = s.rxCap ∧ t.resetSeen = s.resetSeen ∧ t.port = s.port ∧ t.host = s.host := by
  induction is generalizing s with
  | nil => cases h; exact ⟨rfl, rfl, rfl, rfl⟩
  | cons i is ih =>
    obtain ⟨u, hu, hrest⟩ := execAll_cons_eq_next h
    obtain ⟨hcap, hreset, hport, hhost⟩ := ih hrest
    exact ⟨hcap.trans (exec_rxCap hu), hreset.trans (exec_resetSeen hu), hport.trans (exec_port hu),
      hhost.trans (exec_host hu)⟩

/-! ### Accepted frames -/

/-- Only a frame of 5 bytes or more can be accepted (R160). -/
theorem exists_frame_of_not_reject {rx : Option (List Byte)} {ea : Byte} (h : (validateFrame rx ea).getLsbD 7 = false) :
    ∃ f, rx = some f ∧ 5 ≤ f.length := by
  cases rx with
  | none => rw [validateFrame_none] at h; cases h
  | some f =>
    refine ⟨f, rfl, ?_⟩
    by_contra hshort
    rw [validateFrame_of_short (not_le.mp hshort)] at h
    cases h

/-! ### The statements -/

/-- Settles O17: `CrcFrom` of a concatenation by induction on its first part, CRC.COMPUTE by induction on its bytes, and
other commands in between leave CRC_ACC alone. -/
theorem crcStreamsByteByByte : Obligations.CrcStreamsByteByByte := by
  unfold Obligations.CrcStreamsByteByByte
  refine ⟨crcFrom_append, execAll_expandCrcCompute, ?_⟩
  intro is s his
  obtain ⟨t, ht, hcrc⟩ := exists_execAll_crcAcc is (s.setCrc 0xFFFF) his
  exact ⟨t, (execAll_cons (exec_crcInit s) is).trans ht, hcrc⟩

/-- Settles O18: the accumulator's own low byte leaves its high byte, and that one leaves 0. -/
theorem crcOfFrameWithItsCrcIsZero : Obligations.CrcOfFrameWithItsCrcIsZero := computeCrc_append_littleEndian

/-- Settles O22: a frame is its body followed by the body's CRC, low byte first. -/
theorem requestFrameIsEightBytesOfResidueZero : Obligations.RequestFrameIsEightBytesOfResidueZero :=
  fun sa ra => ⟨buildFrame_length sa ra, computeCrc_append_littleEndian (buildBody sa ra)⟩

/-- Settles O21: TXBUF and CRC_ACC are those of the frame built from the operands, in every state. -/
theorem requestFrameIsDeterministic : Obligations.RequestFrameIsDeterministic := by
  unfold Obligations.RequestFrameIsDeterministic
  constructor
  · rintro s s' _ _ sa ra ⟨⟩ ⟨⟩
    refine ⟨?_, rfl⟩
    rw [txBytes_of_buildFrame (s := s) rfl rfl, txBytes_of_buildFrame (s := s') rfl rfl]
  · intro s
    refine ⟨_, exec_encBuild 0x01 0x0101 s, ?_⟩
    have hcrc : computeCrc (buildBody 0x01 0x0101) = 0x36D4 := by
      set_option maxRecDepth 2000 in decide
    rw [txBytes_of_buildFrame (s := s) (sa := 0x01) (ra := 0x0101) rfl rfl, buildFrame_eq, hcrc]
    decide

/-- Settles O26: CRC.COMPUTE as in O17; RX.LOAD loads its bytes, of which RX_CAP cuts none off; RX.CLEAR leaves no frame. -/
theorem pseudoCommandsLoadAndCompute : Obligations.PseudoCommandsLoadAndCompute := by
  unfold Obligations.PseudoCommandsLoadAndCompute
  refine ⟨?compute, ?load, ?none⟩
  case compute =>
    intro bs s
    exact ⟨_, execAll_expandCrcCompute bs s, rfl⟩
  case load =>
    intro bs s hcap
    obtain ⟨t, ht, hloaded⟩ := exists_execAll_rxLoad bs s
    obtain ⟨htcap, -⟩ := execAll_keeps ht
    rw [← htcap] at hcap
    refine ⟨t, ht, hloaded.present, ?_, ?_, ?_⟩
    · rw [hloaded.rxLen_eq, min_eq_right hcap]
    · rw [hloaded.rxFrame_eq, List.take_of_length_le hcap]
    · rw [hloaded.overflow, decide_eq_false hcap.not_gt]
  case none =>
    intro s
    exact ⟨_, execAll_cons (exec_rxClear s) [], rfl⟩

/-- Settles O39: an accepted frame has 5 bytes or more, which is all that DEC.DECODE asks of it. -/
theorem acceptedFrameDecodes : Obligations.AcceptedFrameDecodes := by
  unfold Obligations.AcceptedFrameDecodes
  rintro s _ ea sf v ⟨⟩ ⟨⟩ hv
  obtain ⟨f, hf, hlen⟩ := exists_frame_of_not_reject hv
  obtain ⟨hpresent, rfl⟩ := rxBytes_eq_of_rxFrame hf
  rw [rxBytes_length] at hlen
  exact ⟨_, exec_decDecode sf _, isSome_decodeFrame_rxFrame (s := State.nextDraw _) hpresent hlen sf _, hlen, hpresent⟩

/-- Settles O40: the recomputed CRC is the transmitted one: over 7 bytes the body's, and over 8 the body's after its own low
byte, which is its high byte. -/
theorem wellFormedResponseIsAccepted : Obligations.WellFormedResponseIsAccepted := by
  unfold Obligations.WellFormedResponseIsAccepted
  intro ea hi lo body c
  have hnone : vstatChecked false false false false false = 0x00 := by decide
  have hlen : vstatChecked false false false false true = 0x04 := by decide
  constructor
  · have hcrc : recomputedCrc (body ++ littleEndian c) = transmittedCrc (body ++ littleEndian c) :=
      (joinBytes_high_low c).symm
    refine (validateFrame_of_long (f := body ++ littleEndian c) (by simp [body, littleEndian]) ea).trans ?_
    rw [hcrc, bne_self_eq_false, ← hnone]
    simp [body, byteAt, littleEndian]
  · have hcrc : recomputedCrc (body ++ littleEndian c ++ [0x00]) = transmittedCrc (body ++ littleEndian c ++ [0x00]) :=
      calc computeCrc (body ++ [lowByte c])
        _ = crcByte c (lowByte c) := crcFrom_append _ body [lowByte c]
        _ = zext16 (highByte c) := crcByte_lowByte c
        _ = joinBytes 0x00 (highByte c) := (joinBytes_zero _).symm
    refine (validateFrame_of_long (f := body ++ littleEndian c ++ [0x00]) (by simp [body, littleEndian]) ea).trans ?_
    rw [hcrc, bne_self_eq_false, ← hlen]
    simp [body, byteAt, littleEndian]

end Sys2Proof.Machine
end

section
/-! PROOFS of the statements about the exchange sequencer's invariants (44_exchange_sequencer.md R176 to R181, R187,
70_reset_and_hazards.md R231). First the phases and their commands; then what one step can do to the host agent, said once;
then the three invariants from it, and the statements. -/

namespace Sys2Proof.Machine

/-! ### Phases and their commands -/

theorem callsOk_judged (rejected : Bool) : (Phase.judged rejected).callsOk 1 1 := by
  cases rejected <;> exact ⟨rfl, rfl⟩

theorem callsOk_afterLoad (inv : Invocation) (overflow : Bool) : (inv.afterLoad overflow).callsOk 1 1 := by
  unfold Invocation.afterLoad
  split
  · exact ⟨rfl, rfl⟩
  · exact callsOk_judged overflow

theorem callsOk_done_readOutcome (s : State) : (Phase.done s.readOutcome).callsOk 1 1 := by
  unfold State.readOutcome
  split <;> exact ⟨rfl, rfl⟩

/-- In every phase at most one write and one read, and at the end exactly one write (R181). -/
theorem calls_le_one_of_callsOk {p : Phase} {writes reads : Nat} (h : p.callsOk writes reads) :
    writes ≤ 1 ∧ reads ≤ 1 ∧ ∀ o, p = .done o → writes = 1 := by
  cases p with
  | start | build =>
    obtain ⟨rfl, rfl⟩ := h
    exact ⟨Nat.zero_le 1, Nat.zero_le 1, fun _ hp => by cases hp⟩
  | discard | wait =>
    obtain ⟨rfl, rfl⟩ := h
    exact ⟨le_rfl, Nat.zero_le 1, fun _ _ => rfl⟩
  | load | validate | decode =>
    obtain ⟨rfl, rfl⟩ := h
    exact ⟨le_rfl, le_rfl, fun _ _ => rfl⟩
  | done o =>
    cases o with
    | transportError cause =>
      obtain ⟨rfl, hreads⟩ := h
      exact ⟨le_rfl, hreads, fun _ _ => rfl⟩
    | measurement | absent =>
      obtain ⟨rfl, rfl⟩ := h
      exact ⟨le_rfl, le_rfl, fun _ _ => rfl⟩

/-- Rows 7a and 7b of R187: none, or RX.OPEN and one RX.PUSH for each byte received. -/
theorem loadCommands_cases (inv : Invocation) : inv.loadCommands = [] ∨ ∃ bs, inv.onRead = .bytes bs ∧
    inv.loadCommands = .rxOpen :: (inv.received bs).map .rxPush := by
  unfold Invocation.loadCommands
  split
  · exact .inl rfl
  · exact .inl rfl
  next bs hbs => exact .inr ⟨bs, hbs, rfl⟩

/-- The last column of R187 beside its second: which commands a phase has, in which exchange state. -/
theorem state_of_mem_commands {p : Phase} {inv : Invocation} {i : Instr} (h : i ∈ p.commands inv) :
    (p.state = some .idle ∧ (i = .rxClear ∨ ∃ sa ra, i = .encBuild sa ra)) ∨
    (p.state = some .requestSent ∧ i = .txDiscard) ∨
    (p.state = some .awaitingResponse ∧
      (i = .rxOpen ∨ (∃ b, i = .rxPush b) ∨ (∃ ea, i = .decValidate ea) ∨ ∃ sf, i = .decDecode sf)) := by
  cases p with
  | start | wait | done => cases h
  | build =>
    obtain rfl | rfl : i = .rxClear ∨ i = .encBuild inv.request.slaveAddress inv.request.registerAddress := by
      simpa [Phase.commands] using h
    · exact .inl ⟨rfl, .inl rfl⟩
    · exact .inl ⟨rfl, .inr ⟨_, _, rfl⟩⟩
  | discard => exact .inr (.inl ⟨rfl, List.mem_singleton.mp h⟩)
  | load =>
    refine .inr (.inr ⟨rfl, ?_⟩)
    rcases loadCommands_cases inv with hnone | ⟨bs, -, hload⟩
    · rw [Phase.commands, hnone] at h
      cases h
    · rw [Phase.commands, hload] at h
      rcases List.mem_cons.mp h with hopen | hpush
      · exact .inl hopen
      · obtain ⟨b, -, hb⟩ := List.mem_map.mp hpush
        exact .inr (.inl ⟨b, hb.symm⟩)
  | validate => exact .inr (.inr ⟨rfl, .inr (.inr (.inl ⟨_, List.mem_singleton.mp h⟩))⟩)
  | decode => exact .inr (.inr ⟨rfl, .inr (.inr (.inr ⟨_, List.mem_singleton.mp h⟩))⟩)

/-! ### What one step can do to the host agent -/

section
variable {e : Exchange} (s : State)

/-- Before row 1 the host issues the commands of rows 1 and 2. -/
theorem exchangeStep_start (h : e.phase = .start) : exchangeStep e s = s.enter e .build := by
  simp only [exchangeStep, h]

/-- Row 3, when the transport's write returns. -/
theorem exchangeStep_build_ok (h : e.phase = .build) (hw : e.invocation.onWrite = .ok) :
    exchangeStep e s = (s.enter { e with writes := e.writes ++ [s.readTxFrame] } .discard).nextDraw := by
  obtain ⟨inv, p, writes, reads⟩ := e
  cases h
  simp only [exchangeStep, show inv.onWrite = _ from hw]

/-- Row 3, when the transport's write fails: the exchange ends with its cause (R184). -/
theorem exchangeStep_build_fail {cause : String} (h : e.phase = .build) (hw : e.invocation.onWrite = .fail cause) :
    exchangeStep e s =
      (s.enter { e with writes := e.writes ++ [s.readTxFrame] } (.done (.transportError cause))).nextDraw := by
  obtain ⟨inv, p, writes, reads⟩ := e
  cases h
  simp only [exchangeStep, show inv.onWrite = _ from hw]

theorem exchangeStep_discard (h : e.phase = .discard) :
    exchangeStep e s = s.enter e (.wait e.invocation.quiescence) := by
  simp only [exchangeStep, h]

theorem exchangeStep_wait_succ {n : Nat} (h : e.phase = .wait (n + 1)) : exchangeStep e s = s.enter e (.wait n) := by
  simp only [exchangeStep, h]

/-- Row 6, when the transport's read fails: the exchange ends with its cause (R184). -/
theorem exchangeStep_wait_zero_fail {cause : String} (h : e.phase = .wait 0) (hr : e.invocation.onRead = .fail cause) :
    exchangeStep e s = s.enter { e with reads := e.reads + 1 } (.done (.transportError cause)) := by
  obtain ⟨inv, p, writes, reads⟩ := e
  cases h
  simp only [exchangeStep, show inv.onRead = _ from hr]

/-- Row 6, when the transport's read returns, with a sequence or without. -/
theorem exchangeStep_wait_zero_load (h : e.phase = .wait 0) (hr : ∀ cause, e.invocation.onRead ≠ .fail cause) :
    exchangeStep e s = s.enter { e with reads := e.reads + 1 } .load := by
  obtain ⟨inv, p, writes, reads⟩ := e
  cases h
  cases honRead : inv.onRead with
  | fail cause => exact absurd honRead (hr cause)
  | nothing | bytes => simp only [exchangeStep, honRead]

theorem exchangeStep_load (h : e.phase = .load) :
    exchangeStep e s = (s.enter e (e.invocation.afterLoad s.readOverflow)).nextDraw := by
  simp only [exchangeStep, h]

theorem exchangeStep_validate (h : e.phase = .validate) :
    exchangeStep e s = (s.enter e (.judged (s.readReject || s.readOverflow))).nextDraw := by
  simp only [exchangeStep, h]

theorem exchangeStep_decode (h : e.phase = .decode) : exchangeStep e s = (s.enter e (.done s.readOutcome)).nextDraw := by
  simp only [exchangeStep, h]

end

/-- The host's step of an exchange that goes on: it enters a phase, for the same invocation and with no more calls made than
that phase allows; at most one free value is drawn. -/
theorem exchangeStep_cases {e : Exchange} (s : State) (h : ∀ o, e.phase ≠ .done o) : ∃ (e' : Exchange) (p : Phase),
    e'.invocation = e.invocation ∧
    (e.phase.callsOk e.writes.length e.reads → p.callsOk e'.writes.length e'.reads) ∧
    (exchangeStep e s = s.enter e' p ∨ exchangeStep e s = (s.enter e' p).nextDraw) := by
  cases hp : e.phase with
  | start => exact ⟨e, .build, rfl, id, .inl (exchangeStep_start s hp)⟩
  | build =>
    have hwritten : Phase.callsOk .build e.writes.length e.reads →
        (e.writes ++ [s.readTxFrame]).length = 1 ∧ e.reads = 0 := by
      rintro ⟨hw, hr⟩
      rw [List.length_append, hw]
      exact ⟨rfl, hr⟩
    cases hwrite : e.invocation.onWrite with
    | ok => exact ⟨{ e with writes := e.writes ++ [s.readTxFrame] }, .discard, rfl, hwritten,
        .inr (exchangeStep_build_ok s hp hwrite)⟩
    | fail cause =>
      exact ⟨{ e with writes := e.writes ++ [s.readTxFrame] }, .done (.transportError cause), rfl,
        fun hok => (hwritten hok).imp_right fun hr => hr.trans_le (Nat.zero_le 1),
        .inr (exchangeStep_build_fail s hp hwrite)⟩
  | discard => exact ⟨e, .wait e.invocation.quiescence, rfl, id, .inl (exchangeStep_discard s hp)⟩
  | wait n =>
    cases n with
    | succ n => exact ⟨e, .wait n, rfl, id, .inl (exchangeStep_wait_succ s hp)⟩
    | zero =>
      have hread : Phase.callsOk (.wait 0) e.writes.length e.reads → e.writes.length = 1 ∧ e.reads + 1 = 1 :=
        fun ⟨hw, hr⟩ => ⟨hw, congrArg (· + 1) hr⟩
      by_cases hfail : ∃ cause, e.invocation.onRead = .fail cause
      · obtain ⟨cause, hfail⟩ := hfail
        exact ⟨{ e with reads := e.reads + 1 }, .done (.transportError cause), rfl, fun hok => (hread hok).imp_right Eq.le,
          .inl (exchangeStep_wait_zero_fail s hp hfail)⟩
      · exact ⟨{ e with reads := e.reads + 1 }, .load, rfl, hread,
          .inl (exchangeStep_wait_zero_load s hp (not_exists.mp hfail))⟩
  | load =>
    exact ⟨e, _, rfl, fun ⟨hw, hr⟩ => by rw [hw, hr]; exact callsOk_afterLoad _ _, .inr (exchangeStep_load s hp)⟩
  | validate =>
    exact ⟨e, _, rfl, fun ⟨hw, hr⟩ => by rw [hw, hr]; exact callsOk_judged _, .inr (exchangeStep_validate s hp)⟩
  | decode =>
    exact ⟨e, _, rfl, fun ⟨hw, hr⟩ => by rw [hw, hr]; exact callsOk_done_readOutcome s,
      .inr (exchangeStep_decode s hp)⟩
  | done o => exact absurd hp (h o)

/-- While the exchange goes on, the host's own step is the exchange's. -/
theorem hostStep_of_going_on {s : State} {e : Exchange} (he : s.host.exchange = some e) (hne : ∀ o, e.phase ≠ .done o) :
    hostStep s = exchangeStep e s := by
  cases hp : e.phase with
  | done o => exact absurd hp (hne o)
  | start | build | discard | wait | load | validate | decode => simp only [hostStep, he, hp]

/-- When it has ended, the host turns to its invocations. -/
theorem hostStep_of_done {s : State} {e : Exchange} {o : ExchangeOutcome} (he : s.host.exchange = some e)
    (ho : e.phase = .done o) : hostStep s = nextInvocation s := by
  simp only [hostStep, he, ho]

/-- What a step that answers a next state does to the host agent: at most a waiting command is used up; or the next
invocation is taken up; or the exchange enters a phase, whose commands then wait. -/
theorem step_agent_cases {s t : State} (h : step s = .next t) :
    (t.host.exchange = s.host.exchange ∧ t.host.invocations = s.host.invocations ∧ t.host.queue <:+ s.host.queue) ∨
    (∃ inv rest, s.host.invocations = inv :: rest ∧ t.host.invocations = rest ∧
      t.host.exchange = some (Exchange.begin inv) ∧ t.host.queue = []) ∨
    (∃ (e e' : Exchange) (p : Phase), s.host.exchange = some e ∧ e'.invocation = e.invocation ∧
      (e.phase.callsOk e.writes.length e.reads → p.callsOk e'.writes.length e'.reads) ∧
      t.host.exchange = some { e' with phase := p } ∧ t.host.queue = (p.commands e'.invocation).map encode ∧
      t.host.invocations = s.host.invocations) := by
  have htaken : s.taken.host.queue <:+ s.host.queue := by
    unfold State.taken
    split
    · exact List.suffix_rfl
    · exact List.suffix_rfl
    · exact List.tail_suffix _
    · exact List.tail_suffix _
  rcases step_cases h with ⟨v, cw, rest, -, rfl⟩ | ⟨cw, rest, -, rfl⟩ | ⟨cw, i, -, -, -, he⟩ |
    ⟨cw, op, -, -, -, rfl⟩ | ⟨sel, rest, -, -, rfl⟩ | ⟨rest, -, -, rfl⟩
  case inr.inr.inl =>
    rw [exec_host he]
    exact .inl ⟨taken_host_exchange s, taken_host_invocations s, htaken⟩
  case inr.inr.inr.inl => exact .inl ⟨taken_host_exchange s, taken_host_invocations s, htaken⟩
  case inr.inr.inr.inr.inr =>
    rcases hostStep_cases (s.setPort rest) with hs | ⟨inv, invs, hinv, -, hs⟩ | ⟨e, he, hne, hs⟩
    · rw [hs]
      exact .inl ⟨rfl, rfl, List.suffix_rfl⟩
    · rw [hs]
      exact .inr (.inl ⟨inv, invs, hinv, rfl, rfl, rfl⟩)
    · obtain ⟨e', p, hinv, hcalls, henter⟩ := exchangeStep_cases (s.setPort rest) hne
      refine .inr (.inr ⟨e, e', p, he, hinv, hcalls, ?_⟩)
      rcases henter with henter | henter <;> rw [hs, henter] <;> exact ⟨rfl, rfl, rfl⟩
  all_goals exact .inl ⟨rfl, rfl, List.suffix_rfl⟩

/-! ### The three invariants -/

theorem step_keeps_callsInv {s t : State} (hs : CallsInv s) (h : step s = .next t) : CallsInv t := by
  intro e he
  rcases step_agent_cases h with ⟨hsame, -, -⟩ | ⟨inv, rest, -, -, hbegin, -⟩ |
    ⟨e₀, e', p, he₀, -, hcalls, hexchange, -, -⟩
  · exact hs e (hsame ▸ he)
  · cases hbegin.symm.trans he
    exact ⟨rfl, rfl⟩
  · cases hexchange.symm.trans he
    exact hcalls (hs e₀ he₀)

theorem rowInv_of_some {s : State} {e : Exchange} (he : s.host.exchange = some e) :
    RowInv s ↔ s.host.queue <:+ (e.phase.commands e.invocation).map encode := by
  simp only [RowInv, he]

theorem rowInv_of_none {s : State} (he : s.host.exchange = none) : RowInv s ↔ s.host.queue = [] := by
  simp only [RowInv, he]

/-- The waiting commands may become fewer, from the first on. -/
theorem RowInv.of_suffix {s t : State} (hs : RowInv s) (he : t.host.exchange = s.host.exchange)
    (hq : t.host.queue <:+ s.host.queue) : RowInv t := by
  cases hse : s.host.exchange with
  | none =>
    rw [rowInv_of_none (he.trans hse)]
    rw [rowInv_of_none hse] at hs
    exact List.suffix_nil.mp (hs ▸ hq)
  | some e =>
    rw [rowInv_of_some (he.trans hse)]
    exact hq.trans ((rowInv_of_some hse).mp hs)

theorem rowInv_begin {s : State} {inv : Invocation} (he : s.host.exchange = some (Exchange.begin inv))
    (hq : s.host.queue = []) : RowInv s := by
  rw [rowInv_of_some he, hq]
  exact List.nil_suffix

theorem step_keeps_rowInv {s t : State} (hs : RowInv s) (h : step s = .next t) : RowInv t := by
  rcases step_agent_cases h with ⟨hsame, -, hq⟩ | ⟨inv, rest, -, -, hbegin, hq⟩ |
    ⟨e, e', p, -, -, -, hexchange, hq, -⟩
  · exact hs.of_suffix hsame hq
  · exact rowInv_begin hbegin hq
  · rw [rowInv_of_some hexchange, hq]

theorem step_keeps_paramsInv {s t : State} (hs : ParamsInv s) (h : step s = .next t) : ParamsInv t := by
  obtain ⟨hinvs, hexchange⟩ := hs
  unfold ParamsInv
  rw [step_rxCap h]
  rcases step_agent_cases h with ⟨hsame, hinv, -⟩ | ⟨inv, rest, hcons, hrest, hbegin, -⟩ |
    ⟨e, e', p, he, hinvocation, -, henter, -, hinv⟩
  · rw [hsame, hinv]
    exact ⟨hinvs, hexchange⟩
  · obtain ⟨hfirst, hothers⟩ := List.forall_mem_cons.mp (hcons ▸ hinvs)
    rw [hrest, hbegin]
    refine ⟨hothers, ?_⟩
    rintro _ ⟨⟩
    exact hfirst
  · rw [hinv, henter]
    refine ⟨hinvs, ?_⟩
    rintro _ ⟨⟩
    exact (congrArg (Invocation.keepsRules s.rxCap) hinvocation).trans (hexchange e he)

/-- A host with legal parameters receives no more than RX_CAP bytes (R231). -/
theorem received_length_le_of_keepsRules {cap : Nat} {inv : Invocation} (h : inv.keepsRules cap = true) (bs : List Byte) :
    (inv.received bs).length ≤ cap := by
  simp only [Invocation.keepsRules, Bool.and_eq_true, decide_eq_true_eq] at h
  obtain ⟨⟨-, hmax⟩, -⟩ := h
  exact (List.length_take_le _ bs).trans hmax

/-! ### The statements -/

/-- Settles O50: the phase a step enters allows the calls then made, and no phase allows more than one of each. -/
theorem everyStepKeepsOneWriteAtMostOneRead : Obligations.EveryStepKeepsOneWriteAtMostOneRead := by
  unfold Obligations.EveryStepKeepsOneWriteAtMostOneRead
  intro s t hs h
  have ht := step_keeps_callsInv hs h
  exact ⟨ht, fun e he => calls_le_one_of_callsOk (ht e he)⟩

/-- Settles O52: a step uses up the first waiting command, or enters a phase with its whole row. -/
theorem everyStepKeepsCommandsInTheirRow : Obligations.EveryStepKeepsCommandsInTheirRow :=
  fun _ _ hs h => step_keeps_rowInv hs h

/-- Settles O55: the parameters of an exchange are those of its invocation in every phase, and the read is cut at
READ_MAX_BYTES. -/
theorem everyStepKeepsHostParametersLegal : Obligations.EveryStepKeepsHostParametersLegal := by
  unfold Obligations.EveryStepKeepsHostParametersLegal
  intro s t hs h
  have ht := step_keeps_paramsInv hs h
  refine ⟨ht, fun e he => ?_⟩
  have hreceived := received_length_le_of_keepsRules (ht.2 e he)
  refine ⟨hreceived, (loadCommands_cases e.invocation).imp_right ?_⟩
  rintro ⟨bs, hbs, hload⟩
  exact ⟨bs, hbs, hload, hreceived bs⟩

/-- Settles O53: the word waiting is the word of a command of the row being carried out, and that row's commands have its
exchange state. -/
theorem exchangeCommandsRunInTheirState : Obligations.ExchangeCommandsRunInTheirState := by
  unfold Obligations.ExchangeCommandsRunInTheirState
  intro s cw q rest hs hr hp hq
  cases he : s.host.exchange with
  | none => cases hq.symm.trans ((rowInv_of_none he).mp hs)
  | some e =>
    have hmem : cw ∈ (e.phase.commands e.invocation).map encode :=
      ((rowInv_of_some he).mp hs).subset (hq ▸ List.mem_cons_self)
    obtain ⟨i, hi, rfl⟩ := List.mem_map.mp hmem
    obtain ⟨t, ht, -, -, hport, hhost, -⟩ := exists_exec_next i s.taken
    rw [taken_of_turn hp hq] at hport hhost
    refine ⟨i, t, decode_encode i, ?_, hport, hhost, ?_⟩
    · rw [step_instr hr (nextWord_of_turn hp hq) (decode_encode i), ht]
    · have hstate : s.host.state = e.phase.state := by simp only [HostAgent.state, he]
      rw [hstate]
      rcases state_of_mem_commands hi with ⟨hst, rfl | ⟨_, _, rfl⟩⟩ | ⟨hst, rfl⟩ |
        ⟨hst, rfl | ⟨_, rfl⟩ | ⟨_, rfl⟩ | ⟨_, rfl⟩⟩
      all_goals exact hst

theorem callsInv_begin (s : State) (inv : Invocation) : CallsInv (s.setExchange (Exchange.begin inv)) := by
  rintro _ ⟨⟩
  exact ⟨rfl, rfl⟩

/-- After reset there is no exchange. -/
theorem callsInv_reset : CallsInv State.reset := fun _ he => by cases he

/-- Settles O51: a new exchange has made no call. -/
theorem resetHasNoCallsMade : Obligations.ResetHasNoCallsMade := ⟨callsInv_reset, callsInv_begin⟩

/-- Settles O56: no exchange after reset, and a new one in its first phase with no command waiting. -/
theorem resetEstablishesTheHostInvariants : Obligations.ResetEstablishesTheHostInvariants := by
  unfold Obligations.ResetEstablishesTheHostInvariants
  refine ⟨callsInv_reset, rfl, ⟨List.forall_mem_nil _, fun _ he => nomatch he⟩, rfl, fun s inv => ?_⟩
  refine ⟨callsInv_begin s inv, rowInv_begin rfl rfl, fun hs hinv => ⟨hs.1, ?_⟩, rfl⟩
  rintro _ ⟨⟩
  exact hinv

end Sys2Proof.Machine
end

section
/-! PROOFS of the statement about a host that keeps the rules (10_state.md R20, 44_exchange_sequencer.md R191,
70_reset_and_hazards.md R226). First that the read port shows no free value where an item holds one, then what the exchange's
host reads, then that its steps do not depend on the free values to come. -/

namespace Sys2Proof.Machine

/-! ### Items that hold a value -/

theorem portItem_of_isSome {w : Nat} {item : Option (BitVec w)} (h : item.isSome = true) (u u' : BitVec 64) :
    portItem item u = portItem item u' := by
  obtain ⟨v, rfl⟩ := Option.isSome_iff_exists.mp h
  rfl

/-- The port shows the same whatever the free value, for an item that holds a value. -/
theorem readPort_of_holdsValue {s : State} {sel : BitVec 4} (h : s.holdsValue sel = true) (u u' : BitVec 64) :
    readPort s sel u = readPort s sel u' := by
  unfold State.holdsValue at h
  unfold readPort
  generalize sel.toNat = n at h ⊢
  match n, h with
  | 0, _ | 1, _ | 2, _ | 6, _ | 7, _ => rfl
  | 3, h => exact portItem_of_isSome (by rwa [State.measRaw, Option.isSome_map]) u u'
  | 4, h => exact portItem_of_isSome (by rwa [State.measScaled, Option.isSome_map]) u u'
  | 5, h => exact portItem_of_isSome h u u'
  | n + 8, h => exact portItem_of_isSome h u u'

/-- The same for the free value of the next draw. -/
theorem portRead_draws {s : State} {sel : BitVec 4} (h : s.holdsValue sel = true) (d : Nat) :
    State.portRead { s with draws := d } sel = s.portRead sel :=
  readPort_of_holdsValue h (Config.freeRead d sel) (Config.freeRead s.draws sel)

/-! ### What the exchange's host reads -/

theorem portRead_status_getLsbD (s : State) {k : Nat} (hk : k < 8) : (s.portRead 0).getLsbD k = s.status.getLsbD k := by
  rw [State.portRead, readPort_status, BitVec.getLsbD_setWidth, decide_eq_true (by omega : k < 64), Bool.true_and]

theorem readOverflow_eq (s : State) : s.readOverflow = s.rxOvf := by
  obtain ⟨-, -, hovf, -⟩ := statusCollectsTheFlags s
  rw [State.readOverflow, portRead_status_getLsbD s (by decide), hovf]

theorem portRead_status_measValid (s : State) : (s.portRead 0).getLsbD 3 = s.measValid := by
  obtain ⟨-, -, -, hmeas, -⟩ := statusCollectsTheFlags s
  rw [portRead_status_getLsbD s (by decide), hmeas]

/-- Row 10 of R187 with a Measurement there. -/
theorem readOutcome_of_some {s : State} {m : Measurement} (h : s.meas = some m) : s.readOutcome = .measurement m := by
  have hvalid : s.measValid = true := by rw [State.measValid, h, Option.isSome_some]
  rw [State.readOutcome, portRead_status_measValid, if_pos hvalid, State.portRead, State.portRead, readPort_measRaw,
    readPort_measScaled, measRaw_of_meas h, measScaled_of_meas h, portItem_some, portItem_some,
    BitVec.setWidth_setWidth_of_le _ (by decide), BitVec.setWidth_eq, BitVec.setWidth_eq]

theorem readOutcome_of_none {s : State} (h : s.meas = none) : s.readOutcome = .absent := by
  have hvalid : ¬ s.measValid = true := by rw [State.measValid, h]; exact Bool.false_ne_true
  rw [State.readOutcome, portRead_status_measValid, if_neg hvalid]

/-- VSTAT[7] as the host reads it at row 8, while VSTAT holds a value. -/
theorem readReject_of_some {s : State} {v : Byte} (h : s.vstat = some v) : s.readReject = rejects v := by
  rw [State.readReject, State.portRead, readPort_vstat, h, portItem_some, BitVec.getLsbD_setWidth, rejects]
  rfl

/-- The frame as the host reads it at row 3, while TXBUF holds it. -/
theorem readTxFrame_of_txBytes {s : State} {f : List Byte} (h : s.txBytes = f.map some) : s.readTxFrame = f := by
  have hread : s.readTxFrame.map some = s.txBytes := by
    rw [State.readTxFrame, State.txBytes, List.map_map]
    refine List.map_congr_left fun i hi => ?_
    have hmem : s.txByte i ∈ f.map some := h ▸ List.mem_map_of_mem hi
    obtain ⟨b, -, hb⟩ := List.mem_map.mp hmem
    rw [Function.comp_apply, State.portRead, readPort_txByte s (List.mem_range.mp hi), ← hb, portItem_some,
      BitVec.setWidth_setWidth_of_le _ (by decide), BitVec.setWidth_eq]
  exact List.map_injective_iff.mpr (Option.some_injective Byte) (hread.trans h)

/-! ### The host's own steps, with other free values to come -/

/-- What the host does at the end of a phase depends on no free value, if what it then reads holds values. -/
theorem exchangeStep_host_draws {e : Exchange} {s : State} (hne : ∀ o, e.phase ≠ .done o)
    (hheld : s.phaseReadsHeld e.phase = true) (d : Nat) :
    (exchangeStep e { s with draws := d }).host = (exchangeStep e s).host := by
  cases hp : e.phase with
  | start => rw [exchangeStep_start _ hp, exchangeStep_start _ hp]; rfl
  | build =>
    rw [hp] at hheld
    have hframe : State.readTxFrame { s with draws := d } = s.readTxFrame :=
      List.map_congr_left fun i hi => by rw [portRead_draws (List.all_eq_true.mp hheld i hi)]
    cases hw : e.invocation.onWrite with
    | ok => rw [exchangeStep_build_ok _ hp hw, exchangeStep_build_ok _ hp hw, hframe]; rfl
    | fail cause => rw [exchangeStep_build_fail _ hp hw, exchangeStep_build_fail _ hp hw, hframe]; rfl
  | discard => rw [exchangeStep_discard _ hp, exchangeStep_discard _ hp]; rfl
  | wait n =>
    cases n with
    | succ n => rw [exchangeStep_wait_succ _ hp, exchangeStep_wait_succ _ hp]; rfl
    | zero =>
      by_cases hfail : ∃ cause, e.invocation.onRead = .fail cause
      · obtain ⟨cause, hfail⟩ := hfail
        rw [exchangeStep_wait_zero_fail _ hp hfail, exchangeStep_wait_zero_fail _ hp hfail]; rfl
      · have hload := not_exists.mp hfail
        rw [exchangeStep_wait_zero_load _ hp hload, exchangeStep_wait_zero_load _ hp hload]; rfl
  | load => rw [exchangeStep_load _ hp, exchangeStep_load _ hp, readOverflow_eq, readOverflow_eq]; rfl
  | validate =>
    rw [hp] at hheld
    obtain ⟨v, hv⟩ := Option.isSome_iff_exists.mp (show s.vstat.isSome = true from hheld)
    have hreject : State.readReject { s with draws := d } = s.readReject :=
      (readReject_of_some (s := { s with draws := d }) hv).trans (readReject_of_some hv).symm
    rw [exchangeStep_validate _ hp, exchangeStep_validate _ hp, hreject, readOverflow_eq, readOverflow_eq]; rfl
  | decode =>
    have houtcome : State.readOutcome { s with draws := d } = s.readOutcome := by
      rcases Option.eq_none_or_eq_some s.meas with hm | ⟨m, hm⟩
      · exact (readOutcome_of_none (s := { s with draws := d }) hm).trans (readOutcome_of_none hm).symm
      · exact (readOutcome_of_some (s := { s with draws := d }) hm).trans (readOutcome_of_some hm).symm
    rw [exchangeStep_decode _ hp, exchangeStep_decode _ hp, houtcome]; rfl
  | done o => exact absurd hp (hne o)

/-- The host's step depends on no free value, if what it reads holds values. -/
theorem hostStep_host_draws {s : State} (hq : s.host.queue = []) (hheld : s.turnReadsHeld = true) (d : Nat) :
    (hostStep { s with draws := d }).host = (hostStep s).host := by
  have hnext : (nextInvocation { s with draws := d }).host = (nextInvocation s).host := by
    cases hi : s.host.invocations with
    | nil => simp only [nextInvocation, hi]
    | cons inv rest => simp only [nextInvocation, hi]; rfl
  rw [State.turnReadsHeld, hq] at hheld
  cases he : s.host.exchange with
  | none => simpa only [hostStep, he] using hnext
  | some e =>
    rw [he] at hheld
    by_cases hdone : ∃ o, e.phase = .done o
    · obtain ⟨o, ho⟩ := hdone
      rw [hostStep_of_done (s := { s with draws := d }) he ho, hostStep_of_done he ho, hnext]
    · have hne := not_exists.mp hdone
      rw [hostStep_of_going_on (s := { s with draws := d }) he hne, hostStep_of_going_on he hne]
      exact exchangeStep_host_draws hne hheld d

/-- The step of a host that keeps the rules leaves the host agent the same whatever free values come next. -/
theorem step_host_draws {s t u : State} {d : Nat} (hs : HostKeepsRules s = true) (ht : step s = .next t)
    (hu : step { s with draws := d } = .next u) : u.host = t.host := by
  obtain ⟨hr, hreads⟩ := Bool.and_eq_true_iff.mp hs
  have turn : ∀ rest, (s.port = .idle :: rest ∨ s.port = [] ∧ rest = []) → s.turnReadsHeld = true →
      u.host = t.host := by
    intro rest hp hheld
    cases hq : s.host.queue with
    | nil =>
      cases ht.symm.trans (step_host hp hq)
      cases hu.symm.trans (step_host (s := { s with draws := d }) hp hq)
      exact hostStep_host_draws (s := s.setPort rest) hq hheld d
    | cons cw q =>
      obtain ⟨t', ht', -, hthost⟩ := exists_step_word hr (nextWord_of_turn hp hq)
      obtain ⟨u', hu', -, huhost⟩ := exists_step_word (s := { s with draws := d }) hr (nextWord_of_turn hp hq)
      cases ht.symm.trans ht'
      cases hu.symm.trans hu'
      rw [hthost, huhost, taken_of_turn hp hq, taken_of_turn (s := { s with draws := d }) hp hq]
      rfl
  cases hp : s.port with
  | nil =>
    rw [hp] at hreads
    exact turn [] (.inr ⟨hp, rfl⟩) hreads
  | cons ev rest =>
    rw [hp] at hreads
    cases ev with
    | pins rst v cw =>
      obtain ⟨t', ht', -, hthost⟩ := exists_step_pins hr hp
      obtain ⟨u', hu', -, huhost⟩ := exists_step_pins (s := { s with draws := d }) hr hp
      cases ht.symm.trans ht'
      cases hu.symm.trans hu'
      exact huhost.trans hthost.symm
    | read sel =>
      cases ht.symm.trans (step_read hr hp)
      cases hu.symm.trans (step_read (s := { s with draws := d }) hr hp)
      exact congrArg (fun x => { s.host with lastRead := some (sel, x) }) (portRead_draws (s := s.setPort rest) hreads d)
    | idle => exact turn rest (.inl hp) hreads

/-! ### The statement -/

/-- Settles O43: every step after a reset completes; a read of an item that holds a value shows that value; and so does every
item that the host's own step reads. -/
theorem ruleKeepingHostSeesNoFreeValue : Obligations.RuleKeepingHostSeesNoFreeValue := by
  unfold Obligations.RuleKeepingHostSeesNoFreeValue
  refine ⟨fun s hs => exists_step (Bool.and_eq_true_iff.mp hs).1, ?read,
    fun s t u d hs ht hu => step_host_draws hs ht hu⟩
  case read =>
    intro s sel rest hs hp
    obtain ⟨hr, hheld⟩ := Bool.and_eq_true_iff.mp hs
    rw [hp] at hheld
    refine ⟨_, step_read hr hp, fun u => ?_⟩
    exact congrArg (fun x => some (sel, x)) (readPort_of_holdsValue (s := s) hheld _ u)

end Sys2Proof.Machine
end

section
/-! PROOF of the statement about an undisturbed exchange (44_exchange_sequencer.md R176 to R190). A run of it alternates
between the commands of a phase, which are `execAll` of the phase's row of R187, and the host's own step at the phase's end.
First these two, then the phases one after another, from the last one back. -/

namespace Sys2Proof.Machine

/-! ### Runs -/

/-- A finite number of steps leads from `s` to `t`. -/
def Reaches (s t : State) : Prop := ∃ k, core.run k s = .next t

theorem Reaches.refl (s : State) : Reaches s s := ⟨0, rfl⟩

theorem Reaches.head {s u t : State} (h : step s = .next u) (hu : Reaches u t) : Reaches s t := by
  obtain ⟨k, hk⟩ := hu
  refine ⟨k + 1, ?_⟩
  have hstep : core.step s = .next u := h
  simp only [Host.Core.run, hstep]
  exact hk

theorem Reaches.trans {s u t : State} (hsu : Reaches s u) (hut : Reaches u t) : Reaches s t := by
  obtain ⟨k, hk⟩ := hsu
  induction k generalizing s with
  | zero => cases hk; exact hut
  | succ k ih =>
    simp only [Host.Core.run] at hk
    split at hk
    next s' hs' => exact .head hs' (ih hk)
    next => cases hk
    next => cases hk

/-! ### The commands of a phase -/

/-- What a command does to the block does not depend on the other agent. -/
theorem exec_setHost {i : Instr} {s t : State} (h : exec i s = .next t) (a : HostAgent) :
    exec i (s.setHost a) = .next (t.setHost a) := by
  cases i with
  | rxPush b =>
    rcases exec_rxPush_cases h with ⟨hroom, rfl⟩ | ⟨hfull, rfl⟩
    · exact exec_rxPush_of_lt (s := s.setHost a) hroom b
    · exact exec_rxPush_of_le (s := s.setHost a) hfull b
  | crcInit | crcUpdate | encBuild | txDiscard | rxClear | rxOpen | decDecode | decValidate => cases h; rfl

/-- A host agent with the words of `is` waiting. -/
def HostAgent.waiting (a : HostAgent) (is : List Instr) : HostAgent := { a with queue := is.map encode }

/-- On the sequencer's turn the first command waiting is run, and the others wait on. -/
theorem step_waiting {i : Instr} {is : List Instr} {s t : State} (hr : s.resetSeen = true) (hp : s.port = [])
    (h : exec i s = .next t) (a : HostAgent) :
    step (s.setHost (a.waiting (i :: is))) = .next (t.setHost (a.waiting is)) := by
  have hturn : (s.setHost (a.waiting (i :: is))).port = [] ∧ ([] : List PortEvent) = [] := ⟨hp, rfl⟩
  have hport : (s.setPort []).setHost (a.waiting is) = s.setHost (a.waiting is) := by rw [← hp]; rfl
  rw [step_instr (s := s.setHost (a.waiting (i :: is))) hr (nextWord_of_turn (.inr hturn) rfl) (decode_encode i),
    taken_of_turn (.inr hturn) rfl, ← exec_setHost h (a.waiting is)]
  exact congrArg (exec i) hport

/-- With nothing at the ports, the waiting commands run one after another. -/
theorem reaches_of_waiting {is : List Instr} {s t : State} (hr : s.resetSeen = true) (hp : s.port = [])
    (h : execAll is s = .next t) (a : HostAgent) : Reaches (s.setHost (a.waiting is)) (t.setHost (a.waiting [])) := by
  induction is generalizing s with
  | nil => cases h; exact .refl _
  | cons i is ih =>
    obtain ⟨u, hu, hrest⟩ := execAll_cons_eq_next h
    exact .head (step_waiting hr hp hu a) (ih ((exec_resetSeen hu).trans hr) ((exec_port hu).trans hp) hrest)

/-- From the entry into a phase to the end of its commands. -/
theorem reaches_enter {e : Exchange} {p : Phase} {s t : State} (hr : s.resetSeen = true) (hp : s.port = [])
    (h : execAll (p.commands e.invocation) s = .next t) : Reaches (s.enter e p) (t.setExchange { e with phase := p }) := by
  obtain ⟨-, -, -, hhost⟩ := execAll_keeps h
  rw [State.setExchange, hhost]
  exact reaches_of_waiting hr hp h { s.host with exchange := some { e with phase := p } }

/-- The host's own step at the end of a phase. -/
theorem step_setExchange {e : Exchange} {s : State} (hp : s.port = []) (hne : ∀ o, e.phase ≠ .done o) :
    step (s.setExchange e) = .next (exchangeStep e (s.setExchange e)) := by
  have hport : (s.setExchange e).setPort [] = s.setExchange e := by rw [← hp]; rfl
  rw [step_host (s := s.setExchange e) (.inr ⟨hp, rfl⟩) rfl, hport, hostStep_of_going_on (s := s.setExchange e) rfl hne]

/-! ### An exchange that nothing disturbs -/

/-- A state after a reset with nothing at the ports, with the capacity and the later invocations that stay through the
exchange. -/
structure State.Quiet (s : State) (cap : Nat) (invs : List Invocation) : Prop where
  resetSeen : s.resetSeen = true
  port : s.port = []
  rxCap : s.rxCap = cap
  invocations : s.host.invocations = invs

/-- From `s` the machine comes, with nothing at the ports and no command waiting, to the end of an exchange for `inv` with
outcome `o`, `writes` written and `reads` reads made. -/
def State.Ends (s : State) (invs : List Invocation) (inv : Invocation) (writes : List (List Byte)) (reads : Nat)
    (o : ExchangeOutcome) : Prop :=
  ∃ t, Reaches s t ∧ t.port = [] ∧ t.host.queue = [] ∧ t.host.invocations = invs ∧
    t.host.exchange = some ⟨inv, .done o, writes, reads⟩

section
variable {s t : State} {cap : Nat} {invs : List Invocation} {inv : Invocation} {writes : List (List Byte)} {reads : Nat}
  {o : ExchangeOutcome}

theorem State.Ends.of_reaches (h : Reaches s t) (ht : t.Ends invs inv writes reads o) : s.Ends invs inv writes reads o := by
  obtain ⟨u, hu, hrest⟩ := ht
  exact ⟨u, h.trans hu, hrest⟩

theorem State.Quiet.of_execAll {is : List Instr} (hs : s.Quiet cap invs) (h : execAll is s = .next t) :
    t.Quiet cap invs := by
  obtain ⟨hcap, hreset, hport, hhost⟩ := execAll_keeps h
  exact ⟨hreset.trans hs.resetSeen, hport.trans hs.port, hcap.trans hs.rxCap, hhost ▸ hs.invocations⟩

theorem State.Quiet.nextDraw (hs : s.Quiet cap invs) : s.nextDraw.Quiet cap invs :=
  ⟨hs.resetSeen, hs.port, hs.rxCap, hs.invocations⟩

theorem State.Quiet.ends_done (hs : s.Quiet cap invs) :
    (s.setExchange ⟨inv, .done o, writes, reads⟩).Ends invs inv writes reads o :=
  ⟨_, .refl _, hs.port, rfl, hs.invocations, rfl⟩

/-- One phase: the host's step, and the commands of the phase that it enters. -/
theorem ends_of_enter {e e' : Exchange} {p : Phase} (hs : s.Quiet cap invs) (hne : ∀ o, e.phase ≠ .done o)
    (hstep : exchangeStep e (s.setExchange e) = (s.setExchange e).enter e' p)
    (h : execAll (p.commands e'.invocation) s = .next t)
    (hend : (t.setExchange { e' with phase := p }).Ends invs inv writes reads o) :
    (s.setExchange e).Ends invs inv writes reads o :=
  .of_reaches (.head ((step_setExchange hs.port hne).trans (congrArg _ hstep))
    (reaches_enter (s := s) hs.resetSeen hs.port h)) hend

/-- The same for a host's step that reads the read port, and so draws a free value. -/
theorem ends_of_enter_nextDraw {e e' : Exchange} {p : Phase} (hs : s.Quiet cap invs) (hne : ∀ o, e.phase ≠ .done o)
    (hstep : exchangeStep e (s.setExchange e) = ((s.setExchange e).enter e' p).nextDraw)
    (h : execAll (p.commands e'.invocation) s.nextDraw = .next t)
    (hend : (t.setExchange { e' with phase := p }).Ends invs inv writes reads o) :
    (s.setExchange e).Ends invs inv writes reads o :=
  .of_reaches (.head ((step_setExchange hs.port hne).trans (congrArg _ hstep))
    (reaches_enter hs.nextDraw.resetSeen hs.nextDraw.port h)) hend

end

/-! ### From the loaded frame to the outcome -/

/-- What the host reports of the result registers at row 10 of R187. -/
def ExchangeOutcome.ofMeas : Option Measurement → ExchangeOutcome
  | none => .absent
  | some m => .measurement m

theorem readOutcome_eq (s : State) : s.readOutcome = .ofMeas s.meas := by
  rcases Option.eq_none_or_eq_some s.meas with hm | ⟨m, hm⟩
  · rw [readOutcome_of_none hm, hm, ExchangeOutcome.ofMeas]
  · rw [readOutcome_of_some hm, hm, ExchangeOutcome.ofMeas]

/-- What comes of a loaded frame (R165, R231): absent if it overflowed the buffer or the strict sequence rejects it, else
what DEC.DECODE makes of it. -/
def Invocation.verdict (inv : Invocation) (rx : Option (List Byte)) (overflow : Bool) (nan : F64) : ExchangeOutcome :=
  if overflow || inv.strict && rejects (validateFrame rx inv.request.slaveAddress) then .absent
  else .ofMeas (decodeFrame rx inv.scale nan)

/-- The frame and the overflow flag in the receive registers, where RXBUF holds a value exactly below RX_LEN. -/
structure State.HoldsFrame (s : State) (rx : Option (List Byte)) (overflow : Bool) : Prop where
  indices : Memory.indices s.rxBuf = List.range s.rxLen
  frame : s.rxFrame = rx
  overflow : s.rxOvf = overflow

section
variable {s t : State} {rx : Option (List Byte)} {overflow : Bool}

theorem State.HoldsFrame.congr (hs : s.HoldsFrame rx overflow) (hpresent : t.rxPresent = s.rxPresent)
    (hlen : t.rxLen = s.rxLen) (hbuf : t.rxBuf = s.rxBuf) (hovf : t.rxOvf = s.rxOvf) : t.HoldsFrame rx overflow :=
  ⟨hbuf ▸ hlen ▸ hs.indices, (rxFrame_congr hs.indices hpresent hlen hbuf).trans hs.frame, hovf.trans hs.overflow⟩

theorem State.HoldsFrame.nextDraw (hs : s.HoldsFrame rx overflow) : s.nextDraw.HoldsFrame rx overflow :=
  hs.congr rfl rfl rfl rfl

theorem State.HoldsFrame.exists_decode (hs : s.HoldsFrame rx overflow) (sf : F64) : ∃ t nan,
    execAll [.decDecode sf] s = .next t ∧ f64IsNaN nan = true ∧ t.meas = decodeFrame rx sf nan :=
  ⟨_, freeNaNWord s.draws, execAll_cons (exec_decDecode sf s) [], f64IsNaN_freeNaNWord s.draws,
    by rw [← hs.frame]; rfl⟩

theorem State.HoldsFrame.exists_validate (hs : s.HoldsFrame rx overflow) (ea : Byte) : ∃ t,
    execAll [.decValidate ea] s = .next t ∧ t.HoldsFrame rx overflow ∧ t.vstat = some (validateFrame rx ea) :=
  ⟨_, execAll_cons (exec_decValidate ea s) [], hs.congr rfl rfl rfl rfl, by rw [← hs.frame]; rfl⟩

end

section
variable {s : State} {cap : Nat} {invs : List Invocation} {inv : Invocation} {writes : List (List Byte)} {reads : Nat}
  {rx : Option (List Byte)} {overflow : Bool}

/-- Rows 9 and 10, or the end, after the host has judged the frame. -/
theorem State.Quiet.ends_of_judged {p : Phase} {rejected : Bool} (hs : s.Quiet cap invs) (hrx : s.HoldsFrame rx overflow)
    (hne : ∀ o, p ≠ .done o)
    (hstep : ∀ e : Exchange, e.phase = p → e.invocation = inv →
      exchangeStep e (s.setExchange e) = ((s.setExchange e).enter e (.judged rejected)).nextDraw) :
    ∃ nan, f64IsNaN nan = true ∧
      (s.setExchange ⟨inv, p, writes, reads⟩).Ends invs inv writes reads
        (if rejected then .absent else .ofMeas (decodeFrame rx inv.scale nan)) := by
  cases rejected with
  | true =>
    refine ⟨_, f64IsNaN_freeNaNWord 0, ?_⟩
    exact ends_of_enter_nextDraw hs hne (hstep _ rfl rfl) rfl hs.nextDraw.ends_done
  | false =>
    obtain ⟨t, nan, hexec, hnan, hmeas⟩ := hrx.nextDraw.exists_decode inv.scale
    have ht := hs.nextDraw.of_execAll hexec
    refine ⟨nan, hnan, ends_of_enter_nextDraw hs hne (hstep _ rfl rfl) hexec ?_⟩
    refine ends_of_enter_nextDraw ht (fun _ h => by cases h) (exchangeStep_decode _ rfl) rfl ?_
    rw [if_neg Bool.false_ne_true, ← hmeas, readOutcome_eq]
    exact ht.nextDraw.ends_done

/-- The whole way from the loaded frame: in the strict sequence DEC.VALIDATE comes before the judgement. -/
theorem State.Quiet.ends_of_load (hs : s.Quiet cap invs) (hrx : s.HoldsFrame rx overflow) :
    ∃ nan, f64IsNaN nan = true ∧
      (s.setExchange ⟨inv, .load, writes, reads⟩).Ends invs inv writes reads
        (inv.verdict rx overflow nan) := by
  cases hstrict : inv.strict with
  | false =>
    simp only [Invocation.verdict, hstrict, Bool.false_and, Bool.or_false]
    refine hs.ends_of_judged hrx (fun _ h => by cases h) ?_
    rintro e hp rfl
    rw [exchangeStep_load _ hp, Invocation.afterLoad, hstrict, if_neg Bool.false_ne_true, readOverflow_eq, ← hrx.overflow]
    rfl
  | true =>
    obtain ⟨t, hexec, htrx, hvstat⟩ := hrx.nextDraw.exists_validate inv.request.slaveAddress
    have ht := hs.nextDraw.of_execAll hexec
    simp only [Invocation.verdict, hstrict, Bool.true_and]
    obtain ⟨nan, hnan, hend⟩ := ht.ends_of_judged (inv := inv) (p := .validate) (writes := writes) (reads := reads)
      (rejected := overflow || rejects (validateFrame rx inv.request.slaveAddress)) htrx (fun _ h => by cases h) (by
        rintro e hp rfl
        rw [exchangeStep_validate _ hp, readReject_of_some (s := t.setExchange e) hvstat, readOverflow_eq, ← htrx.overflow,
          Bool.or_comm]
        rfl)
    have hload : ∀ e : Exchange, e.phase = .load → e.invocation = inv →
        exchangeStep e (s.setExchange e) = ((s.setExchange e).enter e .validate).nextDraw := by
      rintro e hp rfl
      rw [exchangeStep_load _ hp, Invocation.afterLoad, if_pos hstrict]
    exact ⟨nan, hnan, ends_of_enter_nextDraw hs (fun _ h => by cases h) (hload _ rfl rfl) hexec hend⟩

/-! ### From the read to the loaded frame -/

theorem State.Loaded.holdsFrame {f : List Byte} (hs : s.Loaded f) :
    s.HoldsFrame (some (f.take s.rxCap)) (decide (s.rxCap < f.length)) := ⟨hs.indices, hs.rxFrame_eq, hs.overflow⟩

/-- The frame that rows 7a and 7b of R187 leave in the receive registers, by what the transport's read gave. -/
def Invocation.loadedFrame (inv : Invocation) (cap : Nat) : Option (List Byte) :=
  match inv.onRead with
  | .fail _ => none
  | .nothing => none
  | .bytes bs => some ((inv.received bs).take cap)

/-- Whether they overflow the buffer. -/
def Invocation.loadOverflows (inv : Invocation) (cap : Nat) : Bool :=
  match inv.onRead with
  | .fail _ => false
  | .nothing => false
  | .bytes bs => decide (cap < (inv.received bs).length)

/-- Rows 7a and 7b: nothing, or the bytes received. -/
theorem State.Quiet.exists_load (hs : s.Quiet cap invs) (hrx : s.HoldsFrame none false) : ∃ t,
    execAll inv.loadCommands s = .next t ∧ t.HoldsFrame (inv.loadedFrame cap) (inv.loadOverflows cap) := by
  unfold Invocation.loadCommands Invocation.loadedFrame Invocation.loadOverflows
  cases inv.onRead with
  | fail | nothing => exact ⟨s, rfl, hrx⟩
  | bytes bs =>
    obtain ⟨t, ht, hloaded⟩ := exists_execAll_rxLoad (inv.received bs) s
    have htrx := hloaded.holdsFrame
    rw [(hs.of_execAll ht).rxCap] at htrx
    exact ⟨t, ht, htrx⟩

/-- The outcome by what the transport's read gives (R184). -/
def Invocation.outcomeOfRead (inv : Invocation) (cap : Nat) (nan : F64) : ExchangeOutcome :=
  match inv.onRead with
  | .fail cause => .transportError cause
  | .nothing => inv.verdict (inv.loadedFrame cap) (inv.loadOverflows cap) nan
  | .bytes _ => inv.verdict (inv.loadedFrame cap) (inv.loadOverflows cap) nan

theorem outcomeOfRead_of_fail {inv : Invocation} {cause : String} (h : inv.onRead = .fail cause) (cap : Nat) (nan : F64) :
    inv.outcomeOfRead cap nan = .transportError cause := by
  simp only [Invocation.outcomeOfRead, h]

theorem outcomeOfRead_of_not_fail {inv : Invocation} (h : ∀ cause, inv.onRead ≠ .fail cause) (cap : Nat) (nan : F64) :
    inv.outcomeOfRead cap nan = inv.verdict (inv.loadedFrame cap) (inv.loadOverflows cap) nan := by
  cases hread : inv.onRead with
  | fail cause => exact absurd hread (h cause)
  | nothing | bytes => simp only [Invocation.outcomeOfRead, hread]

/-- Row 6 and what follows. -/
theorem State.Quiet.ends_of_wait_zero (hs : s.Quiet cap invs) (hrx : s.HoldsFrame none false) :
    ∃ nan, f64IsNaN nan = true ∧ (s.setExchange ⟨inv, .wait 0, writes, reads⟩).Ends invs inv writes (reads + 1)
      (inv.outcomeOfRead cap nan) := by
  by_cases hfail : ∃ cause, inv.onRead = .fail cause
  · obtain ⟨cause, hfail⟩ := hfail
    refine ⟨_, f64IsNaN_freeNaNWord 0, ?_⟩
    rw [outcomeOfRead_of_fail hfail]
    exact ends_of_enter hs (fun _ h => by cases h) (exchangeStep_wait_zero_fail _ rfl hfail) rfl hs.ends_done
  · have hload := not_exists.mp hfail
    obtain ⟨t, hexec, htrx⟩ := hs.exists_load (inv := inv) hrx
    obtain ⟨nan, hnan, hend⟩ := (hs.of_execAll hexec).ends_of_load (inv := inv) (writes := writes)
      (reads := reads + 1) htrx
    refine ⟨nan, hnan, ?_⟩
    rw [outcomeOfRead_of_not_fail hload]
    exact ends_of_enter hs (fun _ h => by cases h) (exchangeStep_wait_zero_load _ rfl hload) hexec hend

/-- Row 5: the wait ends. -/
theorem State.Quiet.ends_of_wait {o : ExchangeOutcome} {n calls : Nat} (hs : s.Quiet cap invs)
    (hend : (s.setExchange ⟨inv, .wait 0, writes, reads⟩).Ends invs inv writes calls o) :
    (s.setExchange ⟨inv, .wait n, writes, reads⟩).Ends invs inv writes calls o := by
  induction n with
  | zero => exact hend
  | succ n ih => exact ends_of_enter hs (fun _ h => by cases h) (exchangeStep_wait_succ _ rfl) rfl ih

/-! ### From the beginning to the read -/

/-- Rows 1 and 2: no frame is left in the receive registers, and the request frame is in TXBUF. -/
theorem exists_build (s : State) (inv : Invocation) : ∃ t, execAll (Phase.build.commands inv) s = .next t ∧
    t.HoldsFrame none false ∧
    t.txBytes = (buildFrame inv.request.slaveAddress inv.request.registerAddress).map some := by
  have hexec := execAll_cons (exec_rxClear s) [.encBuild inv.request.slaveAddress inv.request.registerAddress]
  exact ⟨_, hexec.trans (execAll_cons (exec_encBuild _ _ _) []), ⟨rfl, rfl, rfl⟩, txBytes_of_buildFrame rfl rfl⟩

/-- Row 4 leaves the receive registers alone. -/
theorem State.HoldsFrame.exists_discard (hs : s.HoldsFrame rx overflow) :
    ∃ t, execAll [.txDiscard] s = .next t ∧ t.HoldsFrame rx overflow :=
  ⟨_, execAll_cons (exec_txDiscard s) [], hs.congr rfl rfl rfl rfl⟩

/-- Rows 4 and 5, between the write and the read. -/
theorem State.Quiet.ends_of_discard (hs : s.Quiet cap invs) (hrx : s.HoldsFrame none false) :
    ∃ nan, f64IsNaN nan = true ∧ (s.setExchange ⟨inv, .discard, writes, reads⟩).Ends invs inv writes (reads + 1)
      (inv.outcomeOfRead cap nan) := by
  obtain ⟨nan, hnan, hend⟩ := hs.ends_of_wait_zero (inv := inv) (writes := writes) (reads := reads) hrx
  exact ⟨nan, hnan, ends_of_enter hs (fun _ h => by cases h) (exchangeStep_discard _ rfl) rfl (hs.ends_of_wait hend)⟩

/-- A whole exchange, from its beginning: one write of the request frame; then the end by the write's failure, or one read
and what comes of it. -/
theorem State.Quiet.ends_of_begin (hs : s.Quiet cap invs) (inv : Invocation) : ∃ nan, f64IsNaN nan = true ∧
    (∀ cause, inv.onWrite = .fail cause → (s.setExchange (Exchange.begin inv)).Ends invs inv
      [buildFrame inv.request.slaveAddress inv.request.registerAddress] 0 (.transportError cause)) ∧
    (inv.onWrite = .ok → (s.setExchange (Exchange.begin inv)).Ends invs inv
      [buildFrame inv.request.slaveAddress inv.request.registerAddress] 1 (inv.outcomeOfRead cap nan)) := by
  obtain ⟨t, hbuild, hrx, htx⟩ := exists_build s inv
  have ht := hs.of_execAll hbuild
  have hframe : ∀ e, (t.setExchange e).readTxFrame = buildFrame inv.request.slaveAddress inv.request.registerAddress :=
    fun e => readTxFrame_of_txBytes (s := t.setExchange e) htx
  obtain ⟨u, hdiscard, hurx⟩ := hrx.nextDraw.exists_discard
  obtain ⟨nan, hnan, hend⟩ := (ht.nextDraw.of_execAll hdiscard).ends_of_discard (inv := inv) (reads := 0)
    (writes := [buildFrame inv.request.slaveAddress inv.request.registerAddress]) hurx
  refine ⟨nan, hnan, fun cause hw => ?fail, fun hw => ?ok⟩
  case fail =>
    refine ends_of_enter hs (fun _ h => by cases h) (exchangeStep_start _ rfl) hbuild ?_
    refine ends_of_enter_nextDraw ht (fun _ h => by cases h) (exchangeStep_build_fail _ rfl hw) rfl ?_
    rw [hframe]
    exact ht.nextDraw.ends_done
  case ok =>
    refine ends_of_enter hs (fun _ h => by cases h) (exchangeStep_start _ rfl) hbuild ?_
    refine ends_of_enter_nextDraw ht (fun _ h => by cases h) (exchangeStep_build_ok _ rfl hw) hdiscard ?_
    rw [hframe]
    exact hend

end

/-! ### What comes of each answer of the transport -/

theorem outcomeOfRead_of_nothing {inv : Invocation} (h : inv.onRead = .nothing) (cap : Nat) (nan : F64) :
    inv.outcomeOfRead cap nan = .absent := by
  simp only [Invocation.outcomeOfRead, Invocation.loadedFrame, Invocation.loadOverflows, h, Invocation.verdict]
  split <;> rfl

/-- A frame that fits the buffer is judged and decoded as it was received; a longer one has overflowed. -/
theorem outcomeOfRead_of_bytes {inv : Invocation} {bs : List Byte} (h : inv.onRead = .bytes bs) (cap : Nat) (nan : F64) :
    inv.outcomeOfRead cap nan =
      if cap < (inv.received bs).length then .absent
      else if inv.strict && rejects (validateFrame (some (inv.received bs)) inv.request.slaveAddress) then .absent
      else .ofMeas (decodeFrame (some (inv.received bs)) inv.scale nan) := by
  simp only [Invocation.outcomeOfRead, Invocation.loadedFrame, Invocation.loadOverflows, h, Invocation.verdict]
  by_cases hfit : cap < (inv.received bs).length
  · simp [hfit]
  · rw [List.take_of_length_le (not_lt.mp hfit)]
    simp [hfit]

theorem setExchange_self {s : State} {e : Exchange} (he : s.host.exchange = some e) (hq : s.host.queue = []) :
    s.setExchange e = s := by
  rw [State.setExchange, ← he, ← hq]
  rfl

/-! ### The statement -/

/-- Settles O57: the phases from the beginning to the end; what was received and fits the buffer is the frame judged. -/
theorem exchangeRunsToItsOutcome : Obligations.ExchangeRunsToItsOutcome := by
  unfold Obligations.ExchangeRunsToItsOutcome
  intro s inv hr hp hq he
  have hs : s.Quiet s.rxCap s.host.invocations := ⟨hr, hp, rfl, rfl⟩
  obtain ⟨nan, hnan, hfail, hok⟩ := hs.ends_of_begin inv
  rw [setExchange_self he hq] at hfail hok
  cases hw : inv.onWrite with
  | fail cause =>
    obtain ⟨t, ⟨k, hrun⟩, hport, hqueue, hinvs, hexchange⟩ := hfail cause hw
    refine ⟨k, t, _, _, nan, hrun, hport, hqueue, hexchange, rfl, hnan, rfl, rfl, Nat.zero_le 1, hinvs, ?_,
      fun h => by cases h⟩
    rintro _ ⟨⟩
    exact ⟨rfl, rfl⟩
  | ok =>
    obtain ⟨t, ⟨k, hrun⟩, hport, hqueue, hinvs, hexchange⟩ := hok hw
    refine ⟨k, t, _, _, nan, hrun, hport, hqueue, hexchange, rfl, hnan, rfl, rfl, le_rfl, hinvs, fun _ h => (by cases h),
      fun _ => ⟨rfl, fun _ hread => outcomeOfRead_of_fail hread s.rxCap nan,
        fun hread => outcomeOfRead_of_nothing hread s.rxCap nan, fun bs hread => ?_⟩⟩
    rw [outcomeOfRead_of_bytes hread]
    rfl

end Sys2Proof.Machine
end

section
/-! PROOFS of the statements about rounding to binary64 (30_encoding.md R80 to R83, 42_response_parser.md R139). First the
integer nearest to a rational number and the place it is taken at; then the fields `{e, f}` as significand and scale, and the
fields that `packMag` makes; then that the one is the nearest of the others, and the statements. -/

namespace Sys2Proof.Machine

/-! ### The nearest integer -/

/-- `M` is the integer nearest to `x`, and the even one of the two when `x` lies halfway. -/
structure IsNearestEven (x : ℚ) (M : ℕ) : Prop where
  near : |(M : ℚ) - x| ≤ 1 / 2
  even_of_half : |(M : ℚ) - x| = 1 / 2 → M % 2 = 0

section
variable {x : ℚ} {M : ℕ} (h : IsNearestEven x M)
include h

theorem IsNearestEven.le_of_le {a : ℕ} (ha : (a : ℚ) ≤ x) : a ≤ M := by
  obtain ⟨hlow, -⟩ := abs_le.mp h.near
  have hlt : (a : ℚ) < (M + 1 : ℕ) := by push_cast; linarith
  exact Nat.le_of_lt_succ (Nat.cast_lt.mp hlt)

theorem IsNearestEven.ge_of_le {a : ℕ} (ha : x ≤ a) : M ≤ a := by
  obtain ⟨-, hhigh⟩ := abs_le.mp h.near
  have hlt : (M : ℚ) < (a + 1 : ℕ) := by push_cast; linarith
  exact Nat.le_of_lt_succ (Nat.cast_lt.mp hlt)

/-- No other integer is nearer, and one that is as near makes `M` the even one. -/
theorem IsNearestEven.abs_le_abs (N : ℕ) :
    |(M : ℚ) - x| ≤ |(N : ℚ) - x| ∧ (|(M : ℚ) - x| = |(N : ℚ) - x| → N ≠ M → M % 2 = 0) := by
  rcases eq_or_ne N M with rfl | hne
  · exact ⟨le_rfl, fun _ hn => absurd rfl hn⟩
  · have hone : (1 : ℚ) ≤ |(N : ℚ) - M| := by
      have hint : (1 : ℤ) ≤ |(N : ℤ) - M| := Int.one_le_abs (sub_ne_zero.mpr (by exact_mod_cast hne))
      exact_mod_cast hint
    have htri : |(N : ℚ) - M| ≤ |(N : ℚ) - x| + |(M : ℚ) - x| := by
      rw [abs_sub_comm (M : ℚ) x]
      exact abs_sub_le _ _ _
    have hnear := h.near
    exact ⟨by linarith, fun heq _ => h.even_of_half (by linarith)⟩

/-- Below the odd-even boundary `2a`, the integer is `2a` exactly from half a unit under it on. -/
theorem IsNearestEven.eq_iff_of_le {a : ℕ} (ha : a % 2 = 0) (hpos : 0 < a) (hx : x ≤ a) :
    M = a ↔ (a : ℚ) - 1 / 2 ≤ x := by
  constructor
  · rintro rfl
    obtain ⟨-, hhigh⟩ := abs_le.mp h.near
    linarith
  · intro hhalf
    have hle := h.ge_of_le hx
    by_contra hne
    obtain ⟨b, rfl⟩ : ∃ b, a = b + 1 := ⟨a - 1, by omega⟩
    obtain ⟨hlow, -⟩ := abs_le.mp h.near
    push_cast at hhalf
    have hb : b ≤ M := by
      have hlt : (b : ℚ) < (M + 1 : ℕ) := by push_cast; linarith
      exact Nat.le_of_lt_succ (Nat.cast_lt.mp hlt)
    obtain rfl : M = b := by omega
    have heven : M % 2 = 0 := h.even_of_half (by rw [abs_of_nonpos (by linarith)]; linarith)
    omega

end

/-- `roundHalfEven`, as the remainder of the division decides (R81). -/
theorem roundHalfEven_isNearestEven (n : ℕ) {d : ℕ} (hd : d ≠ 0) : IsNearestEven (n / d) (roundHalfEven n d) := by
  have hdpos : (0 : ℚ) < d := by exact_mod_cast Nat.pos_of_ne_zero hd
  obtain ⟨f, hf⟩ : ∃ f : ℚ, f = (n % d : ℕ) / d := ⟨_, rfl⟩
  have hfd : f * d = (n % d : ℕ) := by rw [hf, div_mul_cancel₀ _ hdpos.ne']
  have hx : (n : ℚ) / d = (n / d : ℕ) + f := by
    rw [div_eq_iff hdpos.ne', add_mul, hfd, mul_comm]
    exact_mod_cast (Nat.div_add_mod n d).symm
  have hnonneg : 0 ≤ f := hf ▸ by positivity
  have hlt : f < 1 := by
    rw [hf, div_lt_one hdpos]
    exact_mod_cast Nat.mod_lt n (Nat.pos_of_ne_zero hd)
  rw [hx, roundHalfEven]
  split
  case isTrue hsmall =>
    have hhalf : f < 1 / 2 := by
      rw [hf, div_lt_iff₀ hdpos]
      have hcast : (2 * (n % d : ℕ) : ℚ) < d := by exact_mod_cast hsmall
      linarith
    have habs : |((n / d : ℕ) : ℚ) - ((n / d : ℕ) + f)| = f := by
      rw [sub_add_cancel_left, abs_neg, abs_of_nonneg hnonneg]
    exact ⟨by linarith, fun h => by linarith⟩
  case isFalse hsmall =>
    have habs : |((n / d + 1 : ℕ) : ℚ) - ((n / d : ℕ) + f)| = 1 - f := by
      rw [Nat.cast_succ, add_sub_add_left_eq_sub, abs_of_pos (by linarith)]
    split
    case isTrue hbig =>
      have hhalf : 1 / 2 < f := by
        rw [hf, lt_div_iff₀ hdpos]
        have hcast : (d : ℚ) < 2 * (n % d : ℕ) := by exact_mod_cast hbig
        linarith
      exact ⟨by linarith, fun h => by linarith⟩
    case isFalse hbig =>
      have hhalf : f = 1 / 2 := by
        rw [hf, div_eq_iff hdpos.ne']
        have hcast : (2 * (n % d : ℕ) : ℚ) = d := by exact_mod_cast le_antisymm (not_lt.mp hbig) (not_lt.mp hsmall)
        linarith
      split
      case isTrue heven =>
        have habs' : |((n / d : ℕ) : ℚ) - ((n / d : ℕ) + f)| = f := by
          rw [sub_add_cancel_left, abs_neg, abs_of_nonneg hnonneg]
        exact ⟨by linarith, fun _ => heven⟩
      case isFalse hodd => exact ⟨by linarith, fun _ => by omega⟩

/-! ### The place a rational number is rounded at -/

/-- `roundAt` is the integer nearest to `q / 2^k` (R81). -/
theorem Ratio.roundAt_isNearestEven {q : Ratio} (hden : q.den ≠ 0) (k : ℤ) :
    IsNearestEven (q.value / 2 ^ k) (q.roundAt k) := by
  have hvalue : q.value / 2 ^ k = q.num / q.den * 2 ^ (q.exp - k) := by
    rw [Ratio.value, zpow_sub₀ two_ne_zero, mul_div_assoc]
  rw [hvalue, Ratio.roundAt]
  cases q.exp - k with
  | ofNat j =>
    have h := roundHalfEven_isNearestEven (q.num * 2 ^ j) hden
    have hx : ((q.num * 2 ^ j : ℕ) : ℚ) / q.den = q.num / q.den * 2 ^ (Int.ofNat j) := by
      rw [Int.ofNat_eq_natCast, zpow_natCast]
      push_cast
      ring
    rwa [hx] at h
  | negSucc j =>
    have h := roundHalfEven_isNearestEven q.num (d := q.den * 2 ^ (j + 1)) (by positivity)
    have hx : (q.num : ℚ) / (q.den * 2 ^ (j + 1) : ℕ) = q.num / q.den * 2 ^ (Int.negSucc j) := by
      rw [zpow_negSucc]
      push_cast
      field_simp
    rwa [hx] at h

theorem twoPowLe_iff {e : ℤ} {n d : ℕ} (hd : d ≠ 0) : twoPowLe e n d = true ↔ (2 : ℚ) ^ e ≤ n / d := by
  have hdpos : (0 : ℚ) < d := by exact_mod_cast Nat.pos_of_ne_zero hd
  rw [le_div_iff₀ hdpos]
  cases e with
  | ofNat k =>
    rw [twoPowLe, decide_eq_true_eq, Int.ofNat_eq_natCast, zpow_natCast, mul_comm]
    exact_mod_cast Iff.rfl
  | negSucc k =>
    rw [twoPowLe, decide_eq_true_eq, zpow_negSucc, inv_mul_le_iff₀ (by positivity), mul_comm]
    exact_mod_cast Iff.rfl

/-- A positive integer lies between the powers of two that its logarithm names. -/
theorem two_zpow_log2_le {n : ℕ} (hn : n ≠ 0) :
    (2 : ℚ) ^ (n.log2 : ℤ) ≤ n ∧ (n : ℚ) < 2 ^ ((n.log2 : ℤ) + 1) := by
  constructor
  · rw [zpow_natCast]
    exact_mod_cast Nat.log2_self_le hn
  · rw [show ((n.log2 : ℤ) + 1) = ((n.log2 + 1 : ℕ) : ℤ) by push_cast; rfl, zpow_natCast]
    exact_mod_cast Nat.lt_log2_self

/-- `floorLog2` is the exponent of the binary place of `q` (R81). -/
theorem Ratio.floorLog2_bounds {q : Ratio} (hnum : q.num ≠ 0) (hden : q.den ≠ 0) :
    (2 : ℚ) ^ q.floorLog2 ≤ q.value ∧ q.value < 2 ^ (q.floorLog2 + 1) := by
  obtain ⟨hnlow, hnhigh⟩ := two_zpow_log2_le hnum
  obtain ⟨hdlow, hdhigh⟩ := two_zpow_log2_le hden
  have hdpos : (0 : ℚ) < q.den := by exact_mod_cast Nat.pos_of_ne_zero hden
  have htwo : (2 : ℚ) ≠ 0 := two_ne_zero
  have hupper : (q.num : ℚ) / q.den < 2 ^ ((q.num.log2 : ℤ) - q.den.log2 + 1) := by
    rw [div_lt_iff₀ hdpos]
    calc (q.num : ℚ) < 2 ^ ((q.num.log2 : ℤ) + 1) := hnhigh
      _ = 2 ^ ((q.num.log2 : ℤ) - q.den.log2 + 1) * 2 ^ (q.den.log2 : ℤ) := by rw [← zpow_add₀ htwo]; congr 1; ring
      _ ≤ _ := by gcongr
  have hlower : (2 : ℚ) ^ ((q.num.log2 : ℤ) - q.den.log2 - 1) ≤ q.num / q.den := by
    rw [le_div_iff₀ hdpos]
    calc (2 : ℚ) ^ ((q.num.log2 : ℤ) - q.den.log2 - 1) * q.den
        ≤ 2 ^ ((q.num.log2 : ℤ) - q.den.log2 - 1) * 2 ^ ((q.den.log2 : ℤ) + 1) := by gcongr
      _ = 2 ^ (q.num.log2 : ℤ) := by rw [← zpow_add₀ htwo]; congr 1; ring
      _ ≤ q.num := hnlow
  have hscale : ∀ l : ℤ, (2 : ℚ) ^ l ≤ q.num / q.den → (q.num : ℚ) / q.den < 2 ^ (l + 1) →
      (2 : ℚ) ^ (l + q.exp) ≤ q.value ∧ q.value < 2 ^ (l + q.exp + 1) := by
    intro l hlow hhigh
    have hexp : (0 : ℚ) < 2 ^ q.exp := by positivity
    rw [Ratio.value, add_right_comm, zpow_add₀ htwo, zpow_add₀ htwo (l + 1)]
    exact ⟨by gcongr, by gcongr⟩
  rw [Ratio.floorLog2]
  split
  case isTrue hle => exact hscale _ ((twoPowLe_iff hden).mp hle) hupper
  case isFalse hle =>
    rw [twoPowLe_iff hden, not_le] at hle
    exact hscale _ hlower (by rwa [sub_add_cancel])

end Sys2Proof.Machine
end

section
/-! PROOFS about the fields of binary64 words (30_encoding.md R80, R81): a field's value as significand and scale, the fields
that `packMag` makes of a rounded significand, and what RoundMag makes of a positive number. -/

namespace Sys2Proof.Machine

/-! ### A field as significand and scale -/

/-- The fraction of a 63-bit field `{e, f}` (R81). -/
def magFrac (m : BitVec 63) : BitVec 52 := m.extractLsb' 0 52

/-- The significand: the fraction, with the leading 1 of a normal number (R80). -/
def magSig (m : BitVec 63) : ℕ := if (magExp m).toNat = 0 then (magFrac m).toNat else 2 ^ 52 + (magFrac m).toNat

/-- The power of two that one unit of the significand stands for (R80). -/
def magScale (m : BitVec 63) : ℤ := max ((magExp m).toNat : ℤ) 1 - 1075

theorem f64Exp_append (s : BitVec 1) (m : BitVec 63) : f64Exp (s ++ m) = magExp m := by
  apply BitVec.eq_of_getLsbD_eq
  intro i hi
  simp only [f64Exp, magExp, BitVec.getLsbD_extractLsb', BitVec.getLsbD_append]
  simp [hi, show 52 + i < 63 by omega]

theorem f64Frac_append (s : BitVec 1) (m : BitVec 63) : f64Frac (s ++ m) = magFrac m := by
  apply BitVec.eq_of_getLsbD_eq
  intro i hi
  simp only [f64Frac, magFrac, BitVec.getLsbD_extractLsb', BitVec.getLsbD_append]
  simp [hi, show i < 63 by omega]

/-- `Mag` does not look at the sign. -/
theorem f64Mag_append (s : BitVec 1) (m : BitVec 63) : f64Mag (s ++ m) = f64Mag ((0 : BitVec 1) ++ m) := by
  simp only [f64Mag, f64Exp_append, f64Frac_append]

theorem magValue_eq (m : BitVec 63) : magValue m = magSig m * 2 ^ magScale m := by
  simp only [magValue, f64Mag, f64Exp_append, f64Frac_append, magSig, magScale]
  by_cases he : (magExp m).toNat = 0
  · simp [he, Ratio.value]
  · have hmax : max ((magExp m).toNat : ℤ) 1 = (magExp m).toNat := max_eq_left (by omega)
    simp [he, Ratio.value, hmax]

theorem magSig_lt (m : BitVec 63) : magSig m < 2 ^ 53 := by
  have hfrac := (magFrac m).isLt
  unfold magSig
  split <;> omega

theorem magScale_ge (m : BitVec 63) : -1074 ≤ magScale m := by
  unfold magScale
  omega

/-- The largest scale of a finite field. -/
theorem magScale_le {m : BitVec 63} (h : magExp m ≠ 2047) : magScale m ≤ 971 := by
  have hlt := (magExp m).isLt
  have hne : (magExp m).toNat ≠ 2047 := fun heq => h (BitVec.eq_of_toNat_eq heq)
  unfold magScale
  omega

/-- A significand without the leading 1 has the smallest scale. -/
theorem magScale_of_magSig_lt {m : BitVec 63} (h : magSig m < 2 ^ 52) : magScale m = -1074 := by
  unfold magSig at h
  split at h
  next he => rw [magScale, he]; rfl
  next => omega

/-- A field is its exponent and its fraction. -/
theorem mag_ext {m m' : BitVec 63} (he : magExp m = magExp m') (hf : magFrac m = magFrac m') : m = m' := by
  apply BitVec.eq_of_getLsbD_eq
  intro i hi
  by_cases h : i < 52
  · have hbit := congrArg (·.getLsbD i) hf
    simpa [magFrac, h] using hbit
  · have hbit := congrArg (·.getLsbD (i - 52)) he
    simpa [magExp, show i - 52 < 11 by omega, show 52 + (i - 52) = i by omega] using hbit

/-- Significand and scale determine the field. -/
theorem mag_eq_of_sig_scale {m m' : BitVec 63} (hsig : magSig m = magSig m') (hscale : magScale m = magScale m') :
    m = m' := by
  have hfrac := (magFrac m).isLt
  have hfrac' := (magFrac m').isLt
  unfold magSig at hsig
  unfold magScale at hscale
  split at hsig <;> split at hsig
  all_goals exact mag_ext (BitVec.eq_of_toNat_eq (by omega)) (BitVec.eq_of_toNat_eq (by omega))

/-- Different finite fields have different values (R80). -/
theorem magScale_le_of_magValue_eq {m m' : BitVec 63} (h : magValue m = magValue m') : magScale m' ≤ magScale m := by
  by_contra hlt
  rw [not_le] at hlt
  have hsig' : 2 ^ 52 ≤ magSig m' := by
    by_contra hsmall
    have hmin := magScale_of_magSig_lt (not_le.mp hsmall)
    have hge := magScale_ge m
    omega
  rw [magValue_eq, magValue_eq] at h
  have hbig : (magSig m : ℚ) * 2 ^ magScale m < magSig m' * 2 ^ magScale m' :=
    calc (magSig m : ℚ) * 2 ^ magScale m < 2 ^ 53 * 2 ^ magScale m := by
          gcongr
          exact_mod_cast magSig_lt m
      _ = 2 ^ 52 * 2 ^ (magScale m + 1) := by rw [zpow_add_one₀ two_ne_zero]; ring
      _ ≤ magSig m' * 2 ^ magScale m' := by
          gcongr
          · exact_mod_cast hsig'
          · norm_num
          · exact hlt
  exact hbig.ne h

theorem magValue_injective {m m' : BitVec 63} (h : magValue m = magValue m') : m = m' := by
  have hscale := le_antisymm (magScale_le_of_magValue_eq h.symm) (magScale_le_of_magValue_eq h)
  rw [magValue_eq, magValue_eq, hscale] at h
  have hsig := mul_right_cancel₀ (zpow_ne_zero _ two_ne_zero) h
  exact mag_eq_of_sig_scale (by exact_mod_cast hsig) hscale

/-! ### Fields put together -/

theorem magExp_magField (e f : ℕ) : magExp (magField e f) = BitVec.ofNat 11 e := append_high _ _

theorem magFrac_magField (e f : ℕ) : magFrac (magField e f) = BitVec.ofNat 52 f := append_low _ _

theorem magField_getLsbD_zero (e f : ℕ) : (magField e f).getLsbD 0 = decide (f % 2 = 1) := by
  have hbit : (magField e f).getLsbD 0 = (magFrac (magField e f)).getLsbD 0 := by simp [magFrac]
  rw [hbit, magFrac_magField, BitVec.getLsbD_ofNat, Nat.testBit_zero]
  rfl

/-- A finite field `m` has significand `M` at exponent `E`: its value is `M × 2^(E-52)`, and its last bit is that of `M`. -/
structure IsMag (m : BitVec 63) (M : ℕ) (E : ℤ) : Prop where
  finite : magExp m ≠ 2047
  value : magValue m = M * 2 ^ (E - 52)
  lastBit : m.getLsbD 0 = decide (M % 2 = 1)

theorem isMag_subnormal {M : ℕ} (hM : M < 2 ^ 52) : IsMag (magField 0 M) M (-1022) where
  finite := by rw [magExp_magField]; decide
  value := by
    rw [magValue_eq, magSig, magScale, magExp_magField, magFrac_magField]
    simpa using hM
  lastBit := magField_getLsbD_zero 0 M

theorem isMag_normal {M : ℕ} {E : ℤ} (hlow : 2 ^ 52 ≤ M) (hhigh : M < 2 ^ 53) (hE : -1022 ≤ E) (hE' : E ≤ 1023) :
    IsMag (magField (E + 1023).toNat (M - 2 ^ 52)) M E := by
  obtain ⟨e, he⟩ : ∃ e : ℕ, (e : ℤ) = E + 1023 := ⟨(E + 1023).toNat, Int.toNat_of_nonneg (by omega)⟩
  have hetoNat : (BitVec.ofNat 11 e).toNat = e := by rw [BitVec.toNat_ofNat, Nat.mod_eq_of_lt (by omega)]
  have hftoNat : (BitVec.ofNat 52 (M - 2 ^ 52)).toNat = M - 2 ^ 52 := by
    rw [BitVec.toNat_ofNat, Nat.mod_eq_of_lt (by omega)]
  rw [← he, Int.toNat_natCast]
  refine ⟨?finite, ?value, ?lastBit⟩
  case finite =>
    rw [magExp_magField]
    intro h
    have := congrArg BitVec.toNat h
    rw [hetoNat] at this
    simp at this
    omega
  case value =>
    have hsig : magSig (magField e (M - 2 ^ 52)) = M := by
      rw [magSig, magExp_magField, magFrac_magField, hetoNat, hftoNat, if_neg (by omega)]
      omega
    have hscale : magScale (magField e (M - 2 ^ 52)) = E - 52 := by
      rw [magScale, magExp_magField, hetoNat]
      omega
    rw [magValue_eq, hsig, hscale]
  case lastBit =>
    rw [magField_getLsbD_zero, show (M - 2 ^ 52) % 2 = M % 2 by omega]

/-! ### Packing a rounded significand -/

theorem packField_isMag {M : ℕ} {E : ℤ} (hM : M < 2 ^ 53) (hE : -1022 ≤ E) (hE' : E ≤ 1023)
    (hsub : M < 2 ^ 52 → E = -1022) : IsMag (packField M E) M E := by
  rw [packField, if_neg (not_lt.mpr hE')]
  split
  next hsmall => exact hsub hsmall ▸ isMag_subnormal hsmall
  next hbig => exact isMag_normal (not_lt.mp hbig) hM hE hE'

/-- The exponent of a rounded significand is too large for a finite word. -/
def MagOverflows (M : ℕ) (E : ℤ) : Prop := 1023 < E ∨ E = 1023 ∧ M = 2 ^ 53

theorem packMag_of_overflows {M : ℕ} {E : ℤ} (h : MagOverflows M E) : packMag M E = magField 2047 0 := by
  rw [packMag, packField, packField]
  rcases h with hE | ⟨rfl, rfl⟩
  · rw [if_pos (show E > 1023 from hE), if_pos (show E + 1 > 1023 by omega), ite_self]
  · rfl

/-- Where it does not overflow, packing loses nothing (R81). -/
theorem packMag_isMag {M : ℕ} {E : ℤ} (hM : M ≤ 2 ^ 53) (hE : -1022 ≤ E) (hsub : M < 2 ^ 52 → E = -1022)
    (hfits : ¬ MagOverflows M E) : IsMag (packMag M E) M E := by
  rw [MagOverflows, not_or, not_and, not_lt] at hfits
  obtain ⟨hE', hcarry⟩ := hfits
  rw [packMag]
  split
  next hfull =>
    subst hfull
    have hE1023 : E ≠ 1023 := fun h => hcarry h rfl
    obtain ⟨hfinite, hvalue, hbit⟩ := packField_isMag (M := 2 ^ 52) (E := E + 1) (by norm_num) (by omega) (by omega)
      (by omega)
    refine ⟨hfinite, ?_, hbit⟩
    rw [hvalue, show E + 1 - 52 = E - 52 + 1 by ring, zpow_add_one₀ two_ne_zero]
    push_cast
    ring
  next hless => exact packField_isMag (lt_of_le_of_ne hM hless) hE hE' hsub

/-! ### RoundMag, for a positive number -/

/-- The exponent that `q` is rounded at: its own, or the subnormals' (R81). -/
def Ratio.magExponent (q : Ratio) : ℤ := max q.floorLog2 (-1022)

/-- The significand that `q` is rounded to (R81). -/
def Ratio.magSignificand (q : Ratio) : ℕ := q.roundAt (q.magExponent - 52)

/-- `q` in units of the last place it is rounded at. -/
def Ratio.inUnits (q : Ratio) : ℚ := q.value / 2 ^ (q.magExponent - 52)

theorem roundMag_eq_packMag {q : Ratio} (hnum : q.num ≠ 0) : roundMag q = packMag q.magSignificand q.magExponent := by
  rw [roundMag, if_neg hnum]
  rfl

theorem roundMag_of_overflows {q : Ratio} (hnum : q.num ≠ 0) (h : MagOverflows q.magSignificand q.magExponent) :
    roundMag q = magField 2047 0 := by
  rw [roundMag_eq_packMag hnum, packMag_of_overflows h]

theorem Ratio.value_eq_inUnits_mul (q : Ratio) : q.value = q.inUnits * 2 ^ (q.magExponent - 52) :=
  (div_mul_cancel₀ _ (zpow_ne_zero _ two_ne_zero)).symm

section
variable {q : Ratio} (hnum : q.num ≠ 0) (hden : q.den ≠ 0)
include hden

theorem Ratio.magSignificand_isNearestEven : IsNearestEven q.inUnits q.magSignificand :=
  Ratio.roundAt_isNearestEven hden _

include hnum

theorem Ratio.inUnits_lt : q.inUnits < 2 ^ 53 := by
  obtain ⟨-, hhigh⟩ := Ratio.floorLog2_bounds hnum hden
  rw [Ratio.inUnits, div_lt_iff₀ (by positivity)]
  calc q.value < 2 ^ (q.floorLog2 + 1) := hhigh
    _ ≤ 2 ^ (q.magExponent + 1) := by
        gcongr
        · norm_num
        · exact le_max_left _ _
    _ = 2 ^ 53 * 2 ^ (q.magExponent - 52) := by
        rw [← zpow_natCast, ← zpow_add₀ two_ne_zero]
        congr 1
        push_cast
        ring

/-- Above the subnormals the significand has its leading 1. -/
theorem Ratio.le_inUnits (hE : q.magExponent ≠ -1022) : 2 ^ 52 ≤ q.inUnits := by
  obtain ⟨hlow, -⟩ := Ratio.floorLog2_bounds hnum hden
  have hexp : q.magExponent = q.floorLog2 := by
    rw [Ratio.magExponent] at hE ⊢
    omega
  rw [Ratio.inUnits, le_div_iff₀ (by positivity), hexp]
  calc (2 : ℚ) ^ 52 * 2 ^ (q.floorLog2 - 52) = 2 ^ q.floorLog2 := by
        rw [← zpow_natCast, ← zpow_add₀ two_ne_zero]
        congr 1
        push_cast
        ring
    _ ≤ q.value := hlow

theorem Ratio.magSignificand_le : q.magSignificand ≤ 2 ^ 53 :=
  (Ratio.magSignificand_isNearestEven hden).ge_of_le (by exact_mod_cast (Ratio.inUnits_lt hnum hden).le)

theorem Ratio.magExponent_of_magSignificand_lt (h : q.magSignificand < 2 ^ 52) : q.magExponent = -1022 := by
  by_contra hE
  have hle := (Ratio.magSignificand_isNearestEven hden).le_of_le (a := 2 ^ 52)
    (by exact_mod_cast Ratio.le_inUnits hnum hden hE)
  omega

/-- A result that does not overflow is the significand at its exponent. -/
theorem roundMag_isMag (hfits : ¬ MagOverflows q.magSignificand q.magExponent) :
    IsMag (roundMag q) q.magSignificand q.magExponent := by
  rw [roundMag_eq_packMag hnum]
  exact packMag_isMag (Ratio.magSignificand_le hnum hden) (le_max_right _ _)
    (Ratio.magExponent_of_magSignificand_lt hnum hden) hfits

theorem magExp_roundMag_iff : magExp (roundMag q) = 2047 ↔ MagOverflows q.magSignificand q.magExponent := by
  constructor
  · intro h
    by_contra hfits
    exact (roundMag_isMag hnum hden hfits).finite h
  · intro h
    rw [roundMag_of_overflows hnum h, magExp_magField]
    rfl

/-- The overflow threshold: halfway between the largest finite word and the next that there would be (R81). -/
theorem magOverflows_iff :
    MagOverflows q.magSignificand q.magExponent ↔ ((2 : ℚ) ^ 53 - 1 / 2) * 2 ^ (971 : ℤ) ≤ q.value := by
  have hlt := Ratio.inUnits_lt hnum hden
  rw [MagOverflows, q.value_eq_inUnits_mul]
  rcases lt_trichotomy q.magExponent 1023 with hE | hE | hE
  · have hbelow : q.inUnits * 2 ^ (q.magExponent - 52) < (2 ^ 53 - 1 / 2) * 2 ^ (971 : ℤ) :=
      calc q.inUnits * 2 ^ (q.magExponent - 52) < 2 ^ 53 * 2 ^ (q.magExponent - 52) := by gcongr
        _ ≤ 2 ^ 53 * 2 ^ (970 : ℤ) := by gcongr <;> [norm_num; omega]
        _ ≤ (2 ^ 53 - 1 / 2) * (2 ^ (970 : ℤ) * 2) := by
            have hunit : ∀ p : ℚ, 0 < p → 2 ^ 53 * p ≤ (2 ^ 53 - 1 / 2) * (p * 2) := fun p hp => by linarith
            exact hunit _ (zpow_pos two_pos _)
        _ = (2 ^ 53 - 1 / 2) * 2 ^ (971 : ℤ) := by rw [← zpow_add_one₀ two_ne_zero]; rfl
    exact iff_of_false (by omega) (not_le.mpr hbelow)
  · have hunits : q.magSignificand = 2 ^ 53 ↔ (2 : ℚ) ^ 53 - 1 / 2 ≤ q.inUnits := by
      have hiff := (Ratio.magSignificand_isNearestEven hden).eq_iff_of_le (a := 2 ^ 53) (by norm_num) (by norm_num)
        (by exact_mod_cast hlt.le)
      exact_mod_cast hiff
    rw [hE, show (1023 - 52 : ℤ) = 971 by rfl, mul_le_mul_iff_left₀ (zpow_pos two_pos _), ← hunits]
    simp
  · have hlead := Ratio.le_inUnits hnum hden (by omega)
    have habove : (2 ^ 53 - 1 / 2) * 2 ^ (971 : ℤ) ≤ q.inUnits * 2 ^ (q.magExponent - 52) :=
      calc ((2 : ℚ) ^ 53 - 1 / 2) * 2 ^ (971 : ℤ) ≤ 2 ^ 52 * (2 ^ (971 : ℤ) * 2) := by
            have hunit : ∀ p : ℚ, 0 < p → (2 ^ 53 - 1 / 2) * p ≤ 2 ^ 52 * (p * 2) := fun p hp => by linarith
            exact hunit _ (zpow_pos two_pos _)
        _ = 2 ^ 52 * 2 ^ (972 : ℤ) := by rw [← zpow_add_one₀ two_ne_zero]; rfl
        _ ≤ q.inUnits * 2 ^ (q.magExponent - 52) :=
            mul_le_mul hlead (zpow_le_zpow_right₀ one_le_two (by omega)) (by positivity) (by linarith)
    exact iff_of_true (.inl hE) habove

/-- No finite field is nearer, and one that is as near makes the significand even. -/
theorem magSignificand_nearest (m : BitVec 63) :
    |(q.magSignificand : ℚ) - q.inUnits| ≤ |magValue m / 2 ^ (q.magExponent - 52) - q.inUnits| ∧
    (|(q.magSignificand : ℚ) - q.inUnits| = |magValue m / 2 ^ (q.magExponent - 52) - q.inUnits| →
      magValue m / 2 ^ (q.magExponent - 52) ≠ q.magSignificand → q.magSignificand % 2 = 0) := by
  have hnear := Ratio.magSignificand_isNearestEven hden
  have hunits : magValue m / 2 ^ (q.magExponent - 52) = magSig m * 2 ^ (magScale m - (q.magExponent - 52)) := by
    rw [magValue_eq, zpow_sub₀ two_ne_zero (magScale m), mul_div_assoc]
  rcases le_or_gt (q.magExponent - 52) (magScale m) with hcoarse | hfine
  case inl =>
    -- the field is a whole number of units
    obtain ⟨j, hj⟩ := Int.le.dest hcoarse
    have hint : magValue m / 2 ^ (q.magExponent - 52) = (magSig m * 2 ^ j : ℕ) := by
      rw [hunits, show magScale m - (q.magExponent - 52) = j by omega, zpow_natCast]
      push_cast
      rfl
    rw [hint]
    obtain ⟨hle, heven⟩ := hnear.abs_le_abs (magSig m * 2 ^ j)
    exact ⟨hle, fun heq hne => heven heq (by exact_mod_cast hne)⟩
  case inr =>
    -- the field lies below the last place, and so below 2^52, which is a whole number of units
    have hlead : (2 : ℚ) ^ 52 ≤ q.inUnits := by
      refine Ratio.le_inUnits hnum hden ?_
      have hge := magScale_ge m
      omega
    have hbelow : magValue m / 2 ^ (q.magExponent - 52) < 2 ^ 52 := by
      rw [hunits]
      calc (magSig m : ℚ) * 2 ^ (magScale m - (q.magExponent - 52)) ≤ magSig m * 2 ^ (-1 : ℤ) := by
            gcongr <;> [norm_num; omega]
        _ < 2 ^ 53 * 2 ^ (-1 : ℤ) := by
            gcongr
            exact_mod_cast magSig_lt m
        _ = 2 ^ 52 := by norm_num
    have hstrict : |(q.magSignificand : ℚ) - q.inUnits| < |magValue m / 2 ^ (q.magExponent - 52) - q.inUnits| := by
      have hgrid : |(q.magSignificand : ℚ) - q.inUnits| ≤ |(2 : ℚ) ^ 52 - q.inUnits| := by
        exact_mod_cast (hnear.abs_le_abs (2 ^ 52)).1
      rw [abs_of_nonpos (by linarith : (2 : ℚ) ^ 52 - q.inUnits ≤ 0)] at hgrid
      rw [abs_of_neg (by linarith : magValue m / 2 ^ (q.magExponent - 52) - q.inUnits < 0)]
      linarith
    exact ⟨hstrict.le, fun heq => absurd heq hstrict.ne⟩

end

end Sys2Proof.Machine
end

section
/-! PROOFS of the statements about RoundMag, U16ToF64, Scale and the decimal literals (30_encoding.md R76, R81 to R83,
42_response_parser.md R139), from the fields of a rounded number. The first statement gives that a number which is a finite
word's own value is rounded to that word, and this gives the statements about Scale. -/

namespace Sys2Proof.Machine

/-! ### RoundMag -/

theorem roundMag_of_num_eq_zero {q : Ratio} (h : q.num = 0) : roundMag q = 0 := by
  rw [roundMag, if_pos h]

theorem Ratio.value_of_num_eq_zero {q : Ratio} (h : q.num = 0) : q.value = 0 := by
  rw [Ratio.value, h]
  simp

theorem magExp_zero_ne : magExp 0 ≠ 2047 := by decide

theorem magValue_zero : magValue 0 = 0 := by
  have hsig : magSig 0 = 0 := by decide
  rw [magValue_eq, hsig, Nat.cast_zero, zero_mul]

/-- A distance from `q`, in units of the last place that `q` is rounded at. -/
theorem Ratio.abs_sub_value (q : Ratio) (a : ℚ) :
    |a - q.value| = |a / 2 ^ (q.magExponent - 52) - q.inUnits| * 2 ^ (q.magExponent - 52) := by
  have hpos : (0 : ℚ) < 2 ^ (q.magExponent - 52) := zpow_pos two_pos _
  rw [Ratio.inUnits, ← sub_div, abs_div, abs_of_pos hpos, div_mul_cancel₀ _ hpos.ne']

theorem overflow_threshold_eq : ((2 : ℚ) ^ 54 - 1) * 2 ^ 970 = (2 ^ 53 - 1 / 2) * 2 ^ (971 : ℤ) := by
  have hpow : (2 : ℚ) ^ (971 : ℤ) = 2 ^ 970 * 2 := by rw [← pow_succ, ← zpow_natCast]; rfl
  have hunit : ∀ p : ℚ, (2 ^ 54 - 1) * p = (2 ^ 53 - 1 / 2) * (p * 2) := fun p => by ring
  rw [hpow, hunit]

/-- Settles O32: infinity where the rounded significand overflows; else the result is the integer of units nearest to `q`,
and no finite field is nearer than the nearest integer. -/
theorem roundMagIsNearestTiesToEven : Obligations.RoundMagIsNearestTiesToEven := by
  unfold Obligations.RoundMagIsNearestTiesToEven
  intro q hden
  rw [overflow_threshold_eq]
  by_cases hnum : q.num = 0
  · rw [roundMag_of_num_eq_zero hnum, Ratio.value_of_num_eq_zero hnum, magValue_zero, sub_zero, abs_zero]
    refine ⟨iff_of_false magExp_zero_ne (not_le.mpr ?_), fun h => absurd h magExp_zero_ne,
      fun _ m _ => ⟨abs_nonneg _, fun _ _ => rfl⟩⟩
    exact mul_pos (by norm_num) (zpow_pos two_pos _)
  · have hiff := magExp_roundMag_iff hnum hden
    refine ⟨hiff.trans (magOverflows_iff hnum hden), fun h => roundMag_of_overflows hnum (hiff.mp h),
      fun hfinite m _ => ?_⟩
    obtain ⟨-, hvalue, hbit⟩ := roundMag_isMag hnum hden (mt hiff.mpr hfinite)
    obtain ⟨hle, heven⟩ := magSignificand_nearest hnum hden m
    have hpos : (0 : ℚ) < 2 ^ (q.magExponent - 52) := zpow_pos two_pos _
    have hunits : magValue (roundMag q) / 2 ^ (q.magExponent - 52) = q.magSignificand := by
      rw [hvalue, mul_div_cancel_right₀ _ hpos.ne']
    rw [q.abs_sub_value, q.abs_sub_value, hunits]
    refine ⟨mul_le_mul_of_nonneg_right hle hpos.le, fun heq hne => ?_⟩
    have hparity := heven (mul_right_cancel₀ hpos.ne' heq) (by rwa [← hunits, Ne, div_left_inj' hpos.ne'])
    rw [hbit, hparity]
    rfl

/-! ### Numbers that are a word's own value -/

theorem magValue_lt_threshold {m : BitVec 63} (h : magExp m ≠ 2047) : magValue m < ((2 : ℚ) ^ 54 - 1) * 2 ^ 970 := by
  have hsig : (magSig m : ℚ) ≤ 2 ^ 53 - 1 := by
    have hcast : (magSig m : ℚ) + 1 ≤ 2 ^ 53 := by exact_mod_cast magSig_lt m
    linarith
  rw [overflow_threshold_eq, magValue_eq]
  calc (magSig m : ℚ) * 2 ^ magScale m ≤ (2 ^ 53 - 1) * 2 ^ (971 : ℤ) := by
        gcongr
        · norm_num
        · exact magScale_le h
    _ < _ := by gcongr; norm_num

/-- A number that a finite word has as its value is rounded to that word (R81). -/
theorem roundMag_of_value_eq {q : Ratio} {m : BitVec 63} (hden : q.den ≠ 0) (hm : magExp m ≠ 2047)
    (h : q.value = magValue m) : roundMag q = m := by
  obtain ⟨hoverflow, -, hnearest⟩ := roundMagIsNearestTiesToEven q hden
  have hfinite : magExp (roundMag q) ≠ 2047 := fun hinf => by
    have hle := hoverflow.mp hinf
    rw [h] at hle
    exact absurd (magValue_lt_threshold hm) (not_lt.mpr hle)
  obtain ⟨hle, -⟩ := hnearest hfinite m hm
  rw [h, sub_self, abs_zero] at hle
  exact magValue_injective (sub_eq_zero.mp (abs_eq_zero.mp (le_antisymm hle (abs_nonneg _))))

/-- The 63-bit field of a word, without its sign. -/
def f64Field (w : F64) : BitVec 63 := w.extractLsb' 0 63

/-- Every word is its sign and its field. -/
theorem f64Sign_append_f64Field (w : F64) : f64Sign w ++ f64Field w = w := by
  rw [f64Sign, f64Field, BitVec.extractLsb'_append_extractLsb'_eq_extractLsb' (by omega), BitVec.extractLsb'_eq_self]

theorem magExp_f64Field (w : F64) : magExp (f64Field w) = f64Exp w := by
  rw [← f64Exp_append (f64Sign w), f64Sign_append_f64Field]

theorem magValue_f64Field (w : F64) : magValue (f64Field w) = (f64Mag w).value := by
  rw [magValue, ← f64Mag_append (f64Sign w), f64Sign_append_f64Field]

/-- Scaling by a finite factor gives the word of the factor's sign whose value is the product, where there is one. -/
theorem scale_of_value_eq {raw : Half} {sf w : F64} (nan : F64) (hsf : f64IsFinite sf = true) (hw : f64IsFinite w = true)
    (hsign : f64Sign w = f64Sign sf) (hvalue : (f64Mag w).value = raw.toNat * (f64Mag sf).value) : scale raw sf nan = w := by
  have hden : ((f64Mag sf).mulNat raw.toNat).den ≠ 0 := by simp [Ratio.mulNat]
  have hfinite : magExp (f64Field w) ≠ 2047 := by rw [magExp_f64Field]; simpa [f64IsFinite] using hw
  have hround : roundMag ((f64Mag sf).mulNat raw.toNat) = f64Field w :=
    roundMag_of_value_eq hden hfinite (by rw [value_mulNat, magValue_f64Field, hvalue])
  rw [scale_of_isFinite hsf, hround, ← hsign, f64Sign_append_f64Field]

/-! ### U16ToF64 -/

section
variable {r : Half} (hr : r.toNat ≠ 0)
include hr

theorem log2_toNat_lt : r.toNat.log2 < 16 := (Nat.log2_lt hr).mpr r.isLt

theorem u16ToF64_of_ne_zero : u16ToF64 r = f64Word 0 (BitVec.ofNat 11 (1023 + r.toNat.log2))
    (BitVec.ofNat 52 ((r.toNat - 2 ^ r.toNat.log2) * 2 ^ (52 - r.toNat.log2))) := by
  rw [u16ToF64, if_neg hr]

/-- The exponent of a positive 16-bit value is its logarithm (R82). -/
theorem f64Exp_u16ToF64 : (f64Exp (u16ToF64 r)).toNat = 1023 + r.toNat.log2 := by
  have hlog := log2_toNat_lt hr
  rw [u16ToF64_of_ne_zero hr, f64Exp_f64Word, BitVec.toNat_ofNat, Nat.mod_eq_of_lt (by omega)]

/-- The significand, leading 1 and fraction, is the value moved up to 53 bits (R82). -/
theorem f64Frac_u16ToF64 : 2 ^ 52 + (f64Frac (u16ToF64 r)).toNat = r.toNat * 2 ^ (52 - r.toNat.log2) := by
  have hlog := log2_toNat_lt hr
  have hlead := Nat.log2_self_le hr
  have hlt : r.toNat - 2 ^ r.toNat.log2 < 2 ^ r.toNat.log2 := by
    have hnext := Nat.lt_log2_self (n := r.toNat)
    rw [pow_succ] at hnext
    omega
  have hunit : 2 ^ 52 = 2 ^ r.toNat.log2 * 2 ^ (52 - r.toNat.log2) := by rw [← pow_add, Nat.add_sub_cancel' (by omega)]
  have hfrac : (r.toNat - 2 ^ r.toNat.log2) * 2 ^ (52 - r.toNat.log2) < 2 ^ 52 := by
    rw [hunit]
    exact Nat.mul_lt_mul_of_pos_right hlt (Nat.two_pow_pos _)
  rw [u16ToF64_of_ne_zero hr, f64Frac_f64Word, BitVec.toNat_ofNat, Nat.mod_eq_of_lt hfrac, hunit, ← add_mul,
    Nat.add_sub_cancel' hlead]

theorem f64Mag_u16ToF64 : (f64Mag (u16ToF64 r)).value = r.toNat := by
  have hlog := log2_toNat_lt hr
  have hexp := f64Exp_u16ToF64 hr
  rw [f64Mag, if_neg (by omega), Ratio.value, f64Frac_u16ToF64 hr, hexp]
  push_cast
  rw [div_one, mul_assoc, ← zpow_natCast, ← zpow_add₀ two_ne_zero, show ((52 - r.toNat.log2 : ℕ) : ℤ) +
    (1023 + r.toNat.log2 - 1075) = 0 by omega, zpow_zero, mul_one]

end

/-! ### The statements -/

/-- Settles O33: 0 is the word 0, and a positive value is its leading 1 and the bits below it. -/
theorem u16ToF64IsExact : Obligations.U16ToF64IsExact := by
  unfold Obligations.U16ToF64IsExact
  intro r
  by_cases hr : r.toNat = 0
  · obtain rfl : r = 0 := BitVec.eq_of_toNat_eq hr
    have hmag : f64Mag (u16ToF64 0) = { num := 0, den := 1, exp := -1074 } := by decide
    exact ⟨by decide, by decide, by rw [hmag, Ratio.value]; simp⟩
  · have hlog := log2_toNat_lt hr
    refine ⟨?_, by rw [u16ToF64_of_ne_zero hr, f64Sign_f64Word], f64Mag_u16ToF64 hr⟩
    rw [f64IsFinite, bne_iff_ne]
    intro hinf
    have hexp := f64Exp_u16ToF64 hr
    rw [hinf] at hexp
    have hmax : (2047 : BitVec 11).toNat = 2047 := rfl
    omega

theorem f64Mag_one_value : (f64Mag 0x3FF0000000000000).value = 1 := by
  have hmag : f64Mag 0x3FF0000000000000 = { num := 2 ^ 52, den := 1, exp := -52 } := by decide
  rw [hmag, Ratio.value]
  norm_num

/-- Settles O34: the product is the integer, and U16ToF64 has that value. -/
theorem scaleByOneIsTheInteger : Obligations.ScaleByOneIsTheInteger := by
  unfold Obligations.ScaleByOneIsTheInteger
  intro raw nan
  obtain ⟨hfinite, hsign, hvalue⟩ := u16ToF64IsExact raw
  refine scale_of_value_eq nan (by decide) hfinite (hsign.trans (by decide)) ?_
  rw [hvalue, f64Mag_one_value, mul_one]

/-- Settles O35: an infinite factor comes back as it is, and a finite one has the product as its own value. -/
theorem scaleOfOneIsTheFactor : Obligations.ScaleOfOneIsTheFactor := by
  unfold Obligations.ScaleOfOneIsTheFactor
  intro sf nan hnan
  cases hfinite : f64IsFinite sf with
  | true => exact scale_of_value_eq nan hfinite hfinite rfl (by simp)
  | false =>
    have hinf : f64IsInf sf = true := by simp_all [f64IsFinite, f64IsNaN, f64IsInf]
    rw [scale_of_isInf hinf, if_neg (by decide)]

/-- Settles O36: each literal by evaluation of RoundMag, and the value of 0.1's word in lowest terms. -/
theorem decimalLiteralsAreTheConstants : Obligations.DecimalLiteralsAreTheConstants := by
  unfold Obligations.DecimalLiteralsAreTheConstants
  have hmag : f64Mag 0x3FB999999999999A = { num := 7205759403792794, den := 1, exp := -56 } := by decide
  refine ⟨by decide, by decide, by decide, by decide, by decide, by decide, by decide, ?_⟩
  rw [hmag, Ratio.value]
  norm_num

end Sys2Proof.Machine
end
